-- ==== Sys2Proof/Word.lean ====
section
/-! DEFINITION. The data moved by the block: bits, `W`-bit words as natural numbers, and a word some of
whose bits nothing has written yet (spec 00_scope.md R13, R14; 20_memory.md R53, R54). -/

namespace Sys2Proof

/-- One bit of a word, of a stream or of a register (00_scope.md R13). -/
abbrev Bit := Bool

/-- A `W`-bit word: the natural number `sum of v[n] * 2^n` (00_scope.md R13, R14). The width is a parameter
of the block, so the bound `< 2^W` is kept by an invariant and not by the type. -/
abbrev Word := Nat

/-- What is stored of one word of `IN` or `OUT`. The block writes single bits (20_memory.md R59) and the
contents of both spaces are unspecified until something is written (10_state.md R39), so a word may be
known in part: bit `n` of `known` says that bit `n` of the word has been written, and then bit `n` of
`bits` is its value. An unwritten bit holds 0 in `bits`. -/
structure PartialWord where
  known : Nat
  bits  : Nat
deriving DecidableEq, Repr

/-- The word of which nothing has been written. -/
def PartialWord.blank : PartialWord := { known := 0, bits := 0 }

end Sys2Proof
end

