-- ==== Sys2Proof/Config.lean ====
section
/-! DEFINITION. The parameters of one instance of the block (00_scope.md R5 to R10) and the model's free
values, which have no body: nothing can be proved of what they are. -/

namespace Sys2Proof

/-- The parameters that fix an instance. They are configuration, not state (10_state.md R20). The bounds on
`W` and `IW` are fields, so an instance with another width cannot be built (00_scope.md R6, R7; 60_exceptions.md R194). -/
structure Config where
  /-- bits per word of both streams (R5) -/
  W  : Nat
  /-- bits of the index type (R7) -/
  IW : Nat
  /-- the encoder's initial polarity (R9) -/
  P0 : Bit
  one_le_W  : 1 ≤ W
  W_le_max  : W ≤ 256
  one_le_IW : 1 ≤ IW
deriving DecidableEq, Repr

namespace Config

/-- `W_MAX`, the largest legal word width (00_scope.md R6). -/
def wMax : Nat := 256

/-- `BW`, the width of a bit-within-word index (00_scope.md R8). -/
def BW : Nat := 8

/-- `FW`, the width of a flat position and of a word index held in a register (00_scope.md R8). -/
def FW (c : Config) : Nat := c.IW + 9

/-- `CW`, the width of the capacity register (00_scope.md R8). -/
def CW (c : Config) : Nat := c.IW + 1

/-- The reference configuration, `W = 8`, `IW = 8`, `P0 = 1` (00_scope.md R9, R10). -/
def reference : Config :=
  { W := 8, IW := 8, P0 := true
    one_le_W := by decide, W_le_max := by decide, one_le_IW := by decide }

/-- FREE VALUE. What bit `n` of word `i` of `IN` holds before anything writes it: unspecified (10_state.md R39). -/
opaque unwrittenIn : Nat → Nat → Bit

/-- FREE VALUE. What bit `n` of word `i` of `OUT` holds before anything writes it: unspecified, never
assumed zero (10_state.md R39, 70_reset_and_hazards.md R225). -/
opaque unwrittenOut : Nat → Nat → Bit

/-- FREE VALUE. What `POL` holds after an assertion of the reset input (10_state.md R39). -/
opaque polAfterReset : Nat → Bit

/-- FREE VALUE. What `J` holds after an assertion of the reset input (10_state.md R39); it is cut to `FW` bits. -/
opaque jAfterReset : Nat → Nat

/-- FREE VALUE. What word `i` of `OUT` holds after a reset that abandoned a command (70_reset_and_hazards.md
R221); it is cut to `W` bits. The first argument is the counter `State.free`. -/
opaque abandonedOut : Nat → Nat → Word

end Config

end Sys2Proof
end

