-- ==== Sys2Proof/Syntax.lean ====
section
/-! DEFINITION. The commands of the block, one constructor per row of spec/opcode_table.json. -/

namespace Sys2Proof

/-- The four operations a command selects (30_encoding.md R80). A command carries no operand field: every
operand is implicit in a register, in `IN` or in `OUT` (30_encoding.md R81). -/
inductive Instr where
  /-- `DECODE`: encoded stream in `IN` to data stream in `OUT` (41_decoder.md R112). -/
  | decode
  /-- `ENCODE`: data stream in `IN` to encoded stream in `OUT` (42_encoder.md R132). -/
  | encode
  /-- `F2WB`: flat position to word index and bit index (43_bit_index_unit.md R153). -/
  | f2wb
  /-- `WB2F`: word index and bit index to flat position (43_bit_index_unit.md R154). -/
  | wb2f
deriving DecidableEq, Repr

end Sys2Proof
end

