-- ==== Sys2Proof/WellFormed.lean ====
section
/-! DEFINITION. What is well formed: every command (a command has no field, 30_encoding.md R81, and all
four codes are defined, R83); and the parameters of an instance, which are refused by name when no such
instance exists (00_scope.md R6, R7; 60_exceptions.md R194). -/

namespace Sys2Proof

/-- Every command is well formed: there is no operand field to check and no reserved code (30_encoding.md
R81, R83). -/
def Instr.wellFormed : Instr → Bool
  | .decode => true
  | .encode => true
  | .f2wb   => true
  | .wb2f   => true

/-- Why an instance cannot be built. -/
inductive ConfigError where
  /-- `W < 1` (00_scope.md R6). -/
  | widthZero
  /-- `W > 256` (00_scope.md R6, 43_bit_index_unit.md R159). -/
  | widthTooLarge
  /-- `IW < 1` (00_scope.md R7). -/
  | indexWidthZero
deriving DecidableEq, Repr

/-- Elaborating an instance: the check of the parameters, made before the block exists and never at run
time (00_scope.md R6, 60_exceptions.md R194). -/
def Config.elaborate (W IW : Nat) (P0 : Bit) : Except ConfigError Config :=
  if h0 : 1 ≤ W then
    if h1 : W ≤ 256 then
      if h2 : 1 ≤ IW then
        .ok { W := W, IW := IW, P0 := P0, one_le_W := h0, W_le_max := h1, one_le_IW := h2 }
      else .error .indexWidthZero
    else .error .widthTooLarge
  else .error .widthZero

end Sys2Proof
end

