-- ==== Sys2Proof/Decode.lean ====
section
/-! DEFINITION. The command code: the low two bits of the value written to `CMD` (30_encoding.md R80 and
its table). Decoding is total and refuses nothing: the field has four values and all four are defined,
and bits above bit 1 are ignored (R83). -/

namespace Sys2Proof

/-- The table of 30_encoding.md R80: the operation of each value of the field `OP`. -/
def decodeOp (op : BitVec 2) : Instr :=
  match op.toNat with
  | 0 => .decode
  | 1 => .encode
  | 2 => .f2wb
  | _ => .wb2f

/-- The operation that a write of `v` to `CMD` selects: `trunc_2(v)` (10_state.md R22). -/
def decode (v : Nat) : Instr := decodeOp (BitVec.ofNat 2 v)

/-- The code of an operation, from the same table (30_encoding.md R80). -/
def encode : Instr → BitVec 2
  | .decode => 0b00#2
  | .encode => 0b01#2
  | .f2wb   => 0b10#2
  | .wb2f   => 0b11#2

/-- The instruction the decoder reads from a table row's bits: the value is written to `CMD` as a number. -/
def decodeTableWord (nbits w : Nat) : Option Instr := some (decode (w % 2 ^ nbits))

end Sys2Proof
end

