-- ==== Sys2Proof/Machine/State.lean ====
section
/-! DEFINITION. The state of one block as plain data (10_state.md R20), the host's script beside it, the
reasons a step can stop, and the state after reset (10_state.md R39, 70_reset_and_hazards.md R220). -/

namespace Sys2Proof.Machine

/-- The eight register numbers of `REG` (10_state.md R21 and its table). -/
inductive Reg where
  | cmd | status | len | cap | flat | widx | bidx | reserved
deriving DecidableEq, Repr

/-- The result of a completed command (60_exceptions.md R190 and its table). -/
inductive ErrCode where
  | ok | insufficientBuffer | invalidLength | invalidOperand
deriving DecidableEq, Repr

/-- The two word spaces (10_state.md R36). -/
inductive Space where
  | input | output
deriving DecidableEq, Repr

/-- The contents of a word space: pairs of a word index and what is known of that word, the indices
strictly rising, no word listed of which nothing is known. An unlisted word has been written nowhere. -/
abbrev Memory := List (Nat × PartialWord)

/-- How far the command in progress has come. The spec implies it in the step-by-step view only
(20_memory.md R64, 30_encoding.md R84); in the atomic view it is `idle` between any two host actions. -/
inductive Activity where
  /-- no command runs (`BUSY = 0`) -/
  | idle
  /-- stage 1 of 30_encoding.md R84 is done, the checks are not -/
  | accepted (op : Instr)
  /-- a `DECODE` whose checks have passed, working on position `J` -/
  | decoding
  /-- an `ENCODE` whose check has passed, working on position `J` -/
  | encoding
deriving DecidableEq, Repr

/-- One line of the host's script (30_encoding.md R91, R92), the reset input (70_reset_and_hazards.md R220),
and two lines that only the step-by-step view has. -/
inductive HostAction where
  /-- `HostWrite(r, v)`; an accepted write to `CMD` is the whole command, in the atomic view (00_scope.md R11) -/
  | write (r : Fin 8) (v : Nat)
  /-- `HostRead(r)`; the value returned is noted -/
  | read (r : Fin 8)
  /-- `IN[i] := v` -/
  | storeIn (i : Nat) (v : Word)
  /-- `OUT[i] := v` -/
  | storeOut (i : Nat) (v : Word)
  /-- `OUT[i] ?`; the word is noted -/
  | loadOut (i : Nat)
  /-- `WAIT`: read `STATUS` until `BUSY = 0`; the last value read is noted -/
  | wait
  /-- the reset input is asserted and released -/
  | reset
  /-- `HostWrite(0, v)` seen step by step: stage 1 of 30_encoding.md R84 only -/
  | start (v : Nat)
  /-- the block makes one step of the command in progress, and the host none -/
  | tick
deriving DecidableEq, Repr

structure State where
  /-- the parameters of the instance; no step changes them (10_state.md R20) -/
  cfg      : Config
  /-- `STATUS`: bit 0 `BUSY`, bits 2:1 `ERR` (10_state.md R23) -/
  status   : BitVec 3
  /-- `LEN`, `IW` bits (10_state.md R24) -/
  len      : Nat
  /-- `CAP`, `CW` bits (10_state.md R25) -/
  cap      : Nat
  /-- `FLAT`, `FW` bits (10_state.md R26) -/
  flat     : Nat
  /-- `WIDX`, `FW` bits (10_state.md R27) -/
  widx     : Nat
  /-- `BIDX`, 8 bits (10_state.md R27) -/
  bidx     : BitVec 8
  /-- `POL`, the running polarity (10_state.md R33) -/
  pol      : Bit
  /-- `J`, the internal flat counter, `FW` bits (10_state.md R34) -/
  j        : Nat
  /-- `IN` (10_state.md R37) -/
  inMem    : Memory
  /-- `OUT` (10_state.md R38) -/
  outMem   : Memory
  /-- the command in progress (30_encoding.md R84) -/
  activity : Activity
  /-- the host actions still to come, first one first: the input of the step relation (10_state.md R20) -/
  script   : List HostAction
  /-- what the host's reads, waits and loads have returned, oldest first (30_encoding.md R91, the note after the arrow) -/
  noted    : List Nat
  /-- the MODEL's own: how many sets of free values have been drawn (assumption log 6) -/
  free     : Nat
deriving DecidableEq, Repr

/-- Why the machine stops with a fault. -/
inductive Fault where
  /-- Raised by the host lines `storeIn`, `storeOut` and `loadOut` while `BUSY = 1`: a race between the host
  and the block for the buffers, which the spec forbids and leaves unspecified (70_reset_and_hazards.md
  R226, 30_encoding.md R91). No command raises it. SAFE: the model stops, so nothing is claimed of such a run. -/
  | bufferRace
deriving DecidableEq, Repr

/-- Why the machine refuses a step. -/
inductive Refusal where
  /-- Raised by no meaning: `exec` would answer it for an instruction without one, by its mnemonic. SAFE. -/
  | notModelled (mnemonic : String)
  /-- Raised by the host lines `storeIn` and `storeOut` for a value that is no `W`-bit word: the script notation
  has no such line (30_encoding.md R91 stores a word). No command raises it. SAFE: the model stops. -/
  | notAWord
deriving DecidableEq, Repr

/-- The state of an instance with parameters `c` just after reset, for given values of what the spec leaves
unspecified (10_state.md R39): `POL`, `J` and the contents of the two memories. -/
def State.afterReset (c : Config) (pol : Bit) (j : Nat) (inMem outMem : Memory) : State :=
  { cfg := c, status := 0b000#3, len := 0, cap := 0, flat := 0, widx := 0, bidx := 0#8
    pol := pol, j := j, inMem := inMem, outMem := outMem
    activity := .idle, script := [], noted := [], free := 0 }

/-- The machine right after reset, in the reference configuration, nothing written to either memory and no
host action pending. `POL = 0` and `J = 0` are the model's choice (assumption log 3). -/
def State.reset : State := State.afterReset Config.reference false 0 [] []

end Sys2Proof.Machine
end

