-- ==== Sys2Proof/Machine/Flags.lean ====
section
/-! DEFINITION. The `STATUS` register: its two fields, the result codes and their names (10_state.md R23, R31;
60_exceptions.md R190). -/

namespace Sys2Proof.Machine

/-- The code of a result in `STATUS.ERR` (60_exceptions.md R190). -/
def ErrCode.code : ErrCode → BitVec 2
  | .ok                 => 0b00#2
  | .insufficientBuffer => 0b01#2
  | .invalidLength      => 0b10#2
  | .invalidOperand     => 0b11#2

/-- The result a code stands for; all four codes are used (60_exceptions.md R190). -/
def ErrCode.ofCode (c : BitVec 2) : ErrCode :=
  match c.toNat with
  | 0 => .ok
  | 1 => .insufficientBuffer
  | 2 => .invalidLength
  | _ => .invalidOperand

/-- The three bits of `STATUS`: bits 2:1 `ERR`, bit 0 `BUSY` (10_state.md R23). -/
def statusWord (busy : Bit) (e : ErrCode) : BitVec 3 := e.code ++ BitVec.ofBool busy

/-- `STATUS.BUSY` (10_state.md R23). -/
def State.busy (s : State) : Bit := s.status.getLsbD 0

/-- `STATUS.ERR` (10_state.md R23). -/
def State.err (s : State) : ErrCode := ErrCode.ofCode (s.status.extractLsb' 1 2)

/-- `STATUS` with `BUSY` set to `b` and `ERR` kept (30_encoding.md R84, stage 1). -/
def State.statusWithBusy (s : State) (b : Bit) : BitVec 3 := statusWord b s.err

end Sys2Proof.Machine
end

