-- ==== Sys2Proof/Machine/Operands.lean ====
section
/-! DEFINITION. Operands: the register file by number, the widths its writes are cut to (10_state.md R21 to
R30), and the bit-index arithmetic through which every bit is addressed (43_bit_index_unit.md R150, R151, R155). -/

namespace Sys2Proof.Machine

/-- `trunc_N(v)` (00_scope.md R15). -/
def trunc (n v : Nat) : Nat := v % 2 ^ n

/-- The register of each number (10_state.md R21). -/
def regOfNumber (r : Fin 8) : Reg :=
  match r with
  | 0 => .cmd
  | 1 => .status
  | 2 => .len
  | 3 => .cap
  | 4 => .flat
  | 5 => .widx
  | 6 => .bidx
  | 7 => .reserved

/-- The width of each register in bits (10_state.md R21). -/
def regWidth (c : Config) : Reg → Nat
  | .cmd      => 2
  | .status   => 3
  | .len      => c.IW
  | .cap      => c.CW
  | .flat     => c.FW
  | .widx     => c.FW
  | .bidx     => Config.BW
  | .reserved => 0

/-- What a host read of a register returns, zero-extended: `CMD` and the reserved register read 0 (10_state.md
R22, R29, R30). -/
def regRead (s : State) : Reg → Nat
  | .cmd      => 0
  | .status   => s.status.toNat
  | .len      => s.len
  | .cap      => s.cap
  | .flat     => s.flat
  | .widx     => s.widx
  | .bidx     => s.bidx.toNat
  | .reserved => 0

/-- What an accepted host write stores: the value cut to the register's width; `STATUS` and the reserved
register store nothing (10_state.md R23, R29, R30), and `CMD` is no storage (R22): a write to it starts a
command, which `hostWrite` does. -/
def regWrite (s : State) (r : Reg) (v : Nat) : State :=
  match r with
  | .cmd      => s
  | .status   => s
  | .len      => { s with len := trunc (regWidth s.cfg .len) v }
  | .cap      => { s with cap := trunc (regWidth s.cfg .cap) v }
  | .flat     => { s with flat := trunc (regWidth s.cfg .flat) v }
  | .widx     => { s with widx := trunc (regWidth s.cfg .widx) v }
  | .bidx     => { s with bidx := BitVec.ofNat 8 v }
  | .reserved => s

/-- `F2WB(k)`: the word and the bit of flat position `k` (43_bit_index_unit.md R150). -/
def f2wb (W k : Nat) : Nat × Nat := (k / W, W - 1 - k % W)

/-- `WB2F(w, n)` for `n < W`: the flat position of bit `n` of word `w` (43_bit_index_unit.md R151). -/
def wb2f (W w n : Nat) : Nat := w * W + (W - 1 - n)

/-- `T`: the number of bits of the input stream (41_decoder.md R111, 42_encoder.md R131). -/
def inputBits (s : State) : Nat := s.len * s.cfg.W

/-- `M`: the number of data bits of a `DECODE` (41_decoder.md R111). -/
def decodeBits (s : State) : Nat := inputBits s / 2

/-- The output words a `DECODE` needs, `ceil(M / W)` (41_decoder.md R111). -/
def decodeNeed (s : State) : Nat := (decodeBits s + s.cfg.W - 1) / s.cfg.W

/-- The output words an `ENCODE` needs (42_encoder.md R131). -/
def encodeNeed (s : State) : Nat := 2 * s.len

end Sys2Proof.Machine
end

