-- ==== Sys2Proof/Machine/Ops.lean ====
section
/-! DEFINITION. The shared operations: the two memories by word and by bit (20_memory.md R58, R59), bits by
flat position (43_bit_index_unit.md R155), the life of a command (30_encoding.md R84) and its end by an error
(60_exceptions.md R195). -/

namespace Sys2Proof.Machine

/-! ### Words known in part -/

/-- `b` with bit `n` made `v`, every other bit kept. -/
def withBit (b n : Nat) (v : Bit) : Nat := if b.testBit n = v then b else b ^^^ 2 ^ n

/-- Bit `n` of the word, if it has been written. -/
def partialBit (w : PartialWord) (n : Nat) : Option Bit :=
  if w.known.testBit n then some (w.bits.testBit n) else none

/-- The word with bit `n` written. -/
def partialSetBit (w : PartialWord) (n : Nat) (v : Bit) : PartialWord :=
  { known := withBit w.known n true, bits := withBit w.bits n v }

/-- A word all of whose `W` bits have been written. -/
def wholeWord (W : Nat) (v : Word) : PartialWord := { known := 2 ^ W - 1, bits := v }

/-- The number whose bits below `W` are `f`. -/
def wordOfBits (f : Nat → Bit) : Nat → Word
  | 0     => 0
  | n + 1 => wordOfBits f n ||| (if f n then 2 ^ n else 0)

/-- The word keeps its form: something is known, nothing is known above bit `W - 1`, an unwritten bit is 0. -/
abbrev partialWf (W : Nat) (w : PartialWord) : Prop :=
  w.known ≠ 0 ∧ w.known < 2 ^ W ∧ w.bits &&& w.known = w.bits

/-! ### A word space -/

/-- What is known of word `i`. The search stops where the rising order says the word cannot come any more. -/
def Memory.find (m : Memory) (i : Nat) : PartialWord :=
  match m with
  | []           => .blank
  | (a, w) :: m' => if i < a then .blank else if i = a then w else Memory.find m' i

/-- The memory with `f` applied to what is known of word `i`, every other word kept. -/
def Memory.modify (f : PartialWord → PartialWord) (m : Memory) (i : Nat) : Memory :=
  match m with
  | []           => [(i, f .blank)]
  | (a, w) :: m' =>
    if i < a then (i, f .blank) :: (a, w) :: m'
    else if i = a then (a, f w) :: m'
    else (a, w) :: Memory.modify f m' i

/-- The canonical form: indices strictly rising, every listed word in its own form. -/
abbrev Memory.wf (W : Nat) (m : Memory) : Prop :=
  m.Pairwise (fun a b => a.1 < b.1) ∧ ∀ p ∈ m, partialWf W p.2

/-- What an unwritten bit of a space reads as: a free value (10_state.md R39). -/
def unwritten : Space → Nat → Nat → Bit
  | .input  => Config.unwrittenIn
  | .output => Config.unwrittenOut

/-- Bit `n` of word `i`: what was last written there, a free value if nothing was. -/
def Memory.readBit (sp : Space) (m : Memory) (i n : Nat) : Bit :=
  (partialBit (m.find i) n).getD (unwritten sp i n)

/-- Set bit `n` of word `i`, all other bits of that word and all other words kept (20_memory.md R59). -/
def Memory.writeBit (m : Memory) (i n : Nat) (v : Bit) : Memory := m.modify (partialSetBit · n v) i

/-- Write the whole word `i` (00_scope.md R15). -/
def Memory.writeWord (W : Nat) (m : Memory) (i : Nat) (v : Word) : Memory := m.modify (fun _ => wholeWord W v) i

/-- Write `f i` to every word `i < n`. -/
def Memory.fill (W : Nat) (f : Nat → Word) : Nat → Memory → Memory
  | 0,     m => m
  | n + 1, m => (Memory.fill W f n m).writeWord W n (f n)

/-! ### The memories of the block -/

/-- The contents of a space. -/
def State.mem (s : State) : Space → Memory
  | .input  => s.inMem
  | .output => s.outMem

/-- `MemReadBit(S, i, n)` (20_memory.md R58). -/
def memReadBit (s : State) (sp : Space) (i n : Nat) : Bit := (s.mem sp).readBit sp i n

/-- `MemRead(S, i)`, the `W`-bit word at index `i` (20_memory.md R58). -/
def memRead (s : State) (sp : Space) (i : Nat) : Word := wordOfBits (memReadBit s sp i) s.cfg.W

/-- `MemWriteBit(OUT, i, n, v)`, the only way the block changes memory (20_memory.md R59). -/
def memWriteBit (s : State) (i n : Nat) (v : Bit) : State := { s with outMem := s.outMem.writeBit i n v }

/-- The host stores a word in its input buffer (30_encoding.md R91). -/
def storeInWord (s : State) (i : Nat) (v : Word) : State := { s with inMem := s.inMem.writeWord s.cfg.W i v }

/-- The host stores a word in its output buffer (30_encoding.md R91); the primitive `MemWrite(OUT, i, v)` of
00_scope.md R15. -/
def storeOutWord (s : State) (i : Nat) (v : Word) : State := { s with outMem := s.outMem.writeWord s.cfg.W i v }

/-- The bit at flat position `k` of a space (43_bit_index_unit.md R155). -/
def readFlat (s : State) (sp : Space) (k : Nat) : Bit :=
  memReadBit s sp (f2wb s.cfg.W k).1 (f2wb s.cfg.W k).2

/-- Write the bit at flat position `k` of `OUT` (43_bit_index_unit.md R155). -/
def writeFlat (s : State) (k : Nat) (v : Bit) : State :=
  memWriteBit s (f2wb s.cfg.W k).1 (f2wb s.cfg.W k).2 v

/-! ### The life of a command -/

/-- Acceptance, stage 1 of 30_encoding.md R84: `BUSY <- 1`, `ERR` kept. -/
def accept (op : Instr) (s : State) : State :=
  { s with status := s.statusWithBusy true, activity := .accepted op }

/-- Completion, stage 3 of 30_encoding.md R84: `ERR <- e`, `BUSY <- 0`, nothing else. -/
def finish (e : ErrCode) (s : State) : State :=
  { s with status := statusWord false e, activity := .idle }

/-- Completion without error. -/
def complete (s : State) : State := finish .ok s

/-- `raise E` (60_exceptions.md R195): the one entry of an error. Nothing is saved and control goes nowhere.
There is no return from it: the block is idle at once, and the code stays until the next completion or a
reset (60_exceptions.md R199). -/
def raise (e : ErrCode) (s : State) : State := finish e s

/-- The host notes a value it was given (30_encoding.md R91). -/
def note (v : Nat) (s : State) : State := { s with noted := s.noted ++ [v] }

end Sys2Proof.Machine
end

