-- ==== Sys2Proof/Machine/BitIndex.lean ====
section
/-! DEFINITION. The bit_index_arithmetic_unit as two commands: `F2WB` and `WB2F` (43_bit_index_unit.md R153, R154). -/

namespace Sys2Proof.Machine

/-- `F2WB` after its acceptance (43_bit_index_unit.md R153). `BIDX` has 8 bits and `W - 1 <= 255`. -/
def runF2wb (s : State) : State :=
  complete { s with widx := (f2wb s.cfg.W s.flat).1
                    bidx := BitVec.ofNat 8 (f2wb s.cfg.W s.flat).2 }

/-- `F2WB` (43_bit_index_unit.md R153). -/
def execF2wb (s : State) : Host.Outcome State Fault Refusal := .next (runF2wb s)

/-- The two causes of `INVALID_OPERAND` (43_bit_index_unit.md R154, 60_exceptions.md R193). -/
def wb2fError (s : State) : Option ErrCode :=
  if s.cfg.W ≤ s.bidx.toNat then some .invalidOperand
  else if 2 ^ s.cfg.FW ≤ wb2f s.cfg.W s.widx s.bidx.toNat then some .invalidOperand
  else none

/-- `WB2F` after its acceptance (43_bit_index_unit.md R154). -/
def runWb2f (s : State) : State :=
  match wb2fError s with
  | some e => raise e s
  | none   => complete { s with flat := wb2f s.cfg.W s.widx s.bidx.toNat }

/-- `WB2F` (43_bit_index_unit.md R154). -/
def execWb2f (s : State) : Host.Outcome State Fault Refusal := .next (runWb2f s)

end Sys2Proof.Machine
end

