-- ==== Sys2Proof/Machine/Decoder.lean ====
section
/-! DEFINITION. The unit differential_manchester_decoder: `DECODE` (41_decoder.md R110 to R119). -/

namespace Sys2Proof.Machine

/-- The checks of 41_decoder.md R111 in their order: length first, then capacity (60_exceptions.md R197). -/
def decodeError (s : State) : Option ErrCode :=
  if inputBits s % 2 = 1 then some .invalidLength
  else if s.cap < decodeNeed s then some .insufficientBuffer
  else none

/-- The data bit of a pair of line bits (30_encoding.md R87). -/
def pairBit (a b : Bit) : Bit := a ^^ b

/-- `J <- 0` before the first position (41_decoder.md R112). -/
def decodeStart (s : State) : State := { s with j := 0 }

/-- One pass of the loop of 41_decoder.md R112: pair `J` of `IN` to data bit `J` of `OUT`, `J <- J + 1`. -/
def decodePosition (s : State) : State :=
  let a := readFlat s .input (2 * s.j)
  let b := readFlat s .input (2 * s.j + 1)
  { writeFlat s s.j (pairBit a b) with j := s.j + 1 }

/-- The whole command after its acceptance (41_decoder.md R112). -/
def runDecode (s : State) : State :=
  match decodeError s with
  | some e => raise e s
  | none   => complete (decodePosition^[decodeBits s] (decodeStart s))

/-- `DECODE` (41_decoder.md R112). -/
def execDecode (s : State) : Host.Outcome State Fault Refusal := .next (runDecode s)

end Sys2Proof.Machine
end

