-- ==== Sys2Proof/Machine/Encoder.lean ====
section
/-! DEFINITION. The unit differential_manchester_encoder: `ENCODE` (42_encoder.md R130 to R140). -/

namespace Sys2Proof.Machine

/-- The one check of 42_encoder.md R131. -/
def encodeError (s : State) : Option ErrCode :=
  if s.cap < encodeNeed s then some .insufficientBuffer else none

/-- The symbol of data bit `d` when the running polarity is `p` (30_encoding.md R86): its two halves. -/
def symbol (p d : Bit) : Bit × Bit := (p, p ^^ d)

/-- `POL <- P0`, `J <- 0` before any input is read (42_encoder.md R132, R133). -/
def encodeStart (s : State) : State := { s with pol := s.cfg.P0, j := 0 }

/-- One pass of the loop of 42_encoder.md R132: data bit `J` of `IN` to symbol `J` of `OUT`, first half first;
the running polarity becomes the last line bit emitted; `J <- J + 1`. -/
def encodePosition (s : State) : State :=
  let d := readFlat s .input s.j
  let e := symbol s.pol d
  { writeFlat (writeFlat s (2 * s.j) e.1) (2 * s.j + 1) e.2 with pol := e.2, j := s.j + 1 }

/-- The whole command after its acceptance (42_encoder.md R132). -/
def runEncode (s : State) : State :=
  match encodeError s with
  | some e => raise e s
  | none   => complete (encodePosition^[inputBits s] (encodeStart s))

/-- `ENCODE` (42_encoder.md R132). -/
def execEncode (s : State) : Host.Outcome State Fault Refusal := .next (runEncode s)

end Sys2Proof.Machine
end

