-- ==== Sys2Proof/Machine/Dispatch.lean ====
section
/-! DEFINITION. The meaning of each command, one arm per constructor of Instr: what an accepted command does,
from its acceptance to its completion, as one transition (00_scope.md R11, 70_reset_and_hazards.md R234). -/

namespace Sys2Proof.Machine

def exec (i : Instr) (s : State) : Host.Outcome State Fault Refusal :=
  match i with
  | .decode => Sys2Proof.Machine.execDecode s
  | .encode => Sys2Proof.Machine.execEncode s
  | .f2wb => Sys2Proof.Machine.execF2wb s
  | .wb2f => Sys2Proof.Machine.execWb2f s

end Sys2Proof.Machine
end

