-- ==== Sys2Proof/Machine/Stepwise.lean ====
section
/-! DEFINITION. The step-by-step view of a command (20_memory.md R64, 30_encoding.md R84): one internal step of
the block, built from the same checks, loop bodies and completions as the meanings. -/

namespace Sys2Proof.Machine

/-- One internal step of the block. The checks come first and touch no memory (60_exceptions.md R198); then
each step handles one position `J`; a last step completes the command. A block without a command in
progress does nothing (60_exceptions.md R205). -/
def tick (s : State) : State :=
  match s.activity with
  | .idle => s
  | .accepted .decode =>
    match decodeError s with
    | some e => raise e s
    | none   => { decodeStart s with activity := .decoding }
  | .accepted .encode =>
    match encodeError s with
    | some e => raise e s
    | none   => { encodeStart s with activity := .encoding }
  | .accepted .f2wb => runF2wb s
  | .accepted .wb2f => runWb2f s
  | .decoding => if s.j < decodeBits s then decodePosition s else complete s
  | .encoding => if s.j < inputBits s then encodePosition s else complete s

end Sys2Proof.Machine
end

