-- ==== Sys2Proof/Machine/HostAccess.lean ====
section
/-! DEFINITION. What the host can do to the block: register writes and reads (10_state.md R29), the lines of
the host script (30_encoding.md R91, R92), the busy rule (70_reset_and_hazards.md R226, R229) and the reset
input (70_reset_and_hazards.md R220, R221). -/

namespace Sys2Proof.Machine

/-- `HostRead(r)`: never changes the block, allowed whether or not `BUSY` is set (10_state.md R29). -/
def hostRead (s : State) (r : Fin 8) : Nat := regRead s (regOfNumber r)

/-- `HostWrite(r, v)` (10_state.md R29): ignored while `BUSY = 1` (70_reset_and_hazards.md R229); otherwise a
write to `CMD` starts the command `trunc_2(v)` (R22), and any other register stores the value cut to its width. -/
def hostWrite (r : Fin 8) (v : Nat) (s : State) : Host.Outcome State Fault Refusal :=
  if s.busy then .next s
  else
    match regOfNumber r with
    | .cmd => exec (decode v) s
    | r'   => .next (regWrite s r' v)

/-- A line that touches a buffer is allowed only while `BUSY = 0` (30_encoding.md R91, 70_reset_and_hazards.md R226). -/
def withBuffers (s : State) (act : State → Host.Outcome State Fault Refusal) : Host.Outcome State Fault Refusal :=
  if s.busy then .fault .bufferRace else act s

/-- A store line carries a `W`-bit word (30_encoding.md R91). -/
def withWord (v : Word) (s t : State) : Host.Outcome State Fault Refusal :=
  if v < 2 ^ s.cfg.W then .next t else .refused .notAWord

/-- What `OUT` holds after a reset: unchanged when no command ran (70_reset_and_hazards.md R220); after a reset
that abandons a command, every word below `CAP` holds a free value (R221). -/
def outAfterReset (s : State) : Memory :=
  if s.busy then
    Memory.fill s.cfg.W (fun i => trunc s.cfg.W (Config.abandonedOut s.free i)) s.cap s.outMem
  else s.outMem

/-- The reset input asserted and released (70_reset_and_hazards.md R220, R221; 10_state.md R39): `POL` and `J`
take free values, `IN` is not changed. -/
def applyReset (s : State) : State :=
  { s with
    status := 0b000#3, len := 0, cap := 0, flat := 0, widx := 0, bidx := 0#8
    pol := Config.polAfterReset s.free
    j := trunc s.cfg.FW (Config.jAfterReset s.free)
    outMem := outAfterReset s
    activity := .idle
    free := s.free + 1 }

/-- One line of the script, already taken off the script (30_encoding.md R91, R92). `WAIT` on a busy block stays
in front while the block makes a step, so it polls again. -/
def hostStep (a : HostAction) (s : State) : Host.Outcome State Fault Refusal :=
  match a with
  | .write r v    => hostWrite r v s
  | .read r       => .next (note (hostRead s r) s)
  | .storeIn i v  => withBuffers s fun s => withWord v s (storeInWord s i v)
  | .storeOut i v => withBuffers s fun s => withWord v s (storeOutWord s i v)
  | .loadOut i    => withBuffers s fun s => .next (note (memRead s .output i) s)
  | .wait         =>
    if s.busy then .next { tick s with script := .wait :: s.script }
    else .next (note (regRead s .status) s)
  | .reset        => .next (applyReset s)
  | .start v      => .next (if s.busy then s else accept (decode v) s)
  | .tick         => .next (tick s)

/-- The line can be written in the script notation: a stored value is a `W`-bit word (30_encoding.md R91). -/
def HostAction.wellFormed (c : Config) : HostAction → Bool
  | .write _ _    => true
  | .read _       => true
  | .storeIn _ v  => decide (v < 2 ^ c.W)
  | .storeOut _ v => decide (v < 2 ^ c.W)
  | .loadOut _    => true
  | .wait         => true
  | .reset        => true
  | .start _      => true
  | .tick         => true

end Sys2Proof.Machine
end

