-- ==== Sys2Proof/Machine/Step.lean ====
section
/-! DEFINITION. One step of the machine: the next line of the host's script, or, when the host does nothing, one
internal step of the block (10_state.md R20, R28; 30_encoding.md R84). -/

namespace Sys2Proof.Machine

/-- The block fetches no instruction (10_state.md R28): its input is the host's next action. With no action left
a busy block goes on to its completion by itself (70_reset_and_hazards.md R232), an idle one waits. -/
def step (s : State) : Host.Outcome State Fault Refusal :=
  match s.script with
  | []        => .next (tick s)
  | a :: rest => hostStep a { s with script := rest }

/-- The block idle, and the write of the word to `CMD` the host's next action (assumption log 2). -/
def State.withFetchWord (s : State) (nbits w : Nat) : State :=
  { s with
    status := s.statusWithBusy false
    activity := .idle
    script := .write 0 (w % 2 ^ nbits) :: s.script }

end Sys2Proof.Machine
end

