-- ==== Sys2Proof/Safety.lean ====
section
/-! DEFINITION. The terms the claims use: what a legal state is, what a host line may be, the parity of 42_encoder.md
R134, and agreement of two states on their registers or on a stream. -/

namespace Sys2Proof.Machine

/-- What every step keeps: the registers fit their widths (10_state.md R21, 00_scope.md R8), both memories are in
canonical form, `BUSY` says whether a command is in progress (10_state.md R23), and a command that is past its
checks has passed them and has not run past its bound (10_state.md R34). -/
structure Legal (s : State) : Prop where
  len_fits    : s.len < 2 ^ s.cfg.IW
  cap_fits    : s.cap < 2 ^ s.cfg.CW
  flat_fits   : s.flat < 2 ^ s.cfg.FW
  widx_fits   : s.widx < 2 ^ s.cfg.FW
  j_fits      : s.j < 2 ^ s.cfg.FW
  input_wf    : Memory.wf s.cfg.W s.inMem
  output_wf   : Memory.wf s.cfg.W s.outMem
  busy_active : s.busy = true ↔ s.activity ≠ .idle
  decoding    : s.activity = .decoding → decodeError s = none ∧ s.j ≤ decodeBits s
  encoding    : s.activity = .encoding → encodeError s = none ∧ s.j ≤ inputBits s

/-- No command is in progress. -/
def State.isIdle (s : State) : Prop := s.busy = false ∧ s.activity = .idle

/-- The line belongs to the atomic view (00_scope.md R11): it leaves no command half done. -/
def HostAction.atomic : HostAction → Bool
  | .start _ => false
  | _        => true

/-- The line touches a buffer, which the host may do only while `BUSY = 0` (70_reset_and_hazards.md R226). -/
def HostAction.touchesBuffer : HostAction → Bool
  | .storeIn _ _  => true
  | .storeOut _ _ => true
  | .loadOut _    => true
  | _             => false

/-- `q[j]` of 42_encoder.md R134: the parity of the first `j` bits of `d`. -/
def prefixParity (d : Nat → Bit) : Nat → Bit
  | 0     => false
  | j + 1 => prefixParity d j ^^ d j

/-- The result code 60_exceptions.md R190 to R193 give a command, from the registers and parameters alone. -/
def expectedErr (i : Instr) (s : State) : ErrCode :=
  match i with
  | .decode =>
    if s.len * s.cfg.W % 2 = 1 then .invalidLength
    else if s.cap < (s.len + 1) / 2 then .insufficientBuffer
    else .ok
  | .encode => if s.cap < 2 * s.len then .insufficientBuffer else .ok
  | .f2wb   => .ok
  | .wb2f   =>
    if s.cfg.W ≤ s.bidx.toNat ∨ 2 ^ s.cfg.FW ≤ s.widx * s.cfg.W + (s.cfg.W - 1 - s.bidx.toNat)
    then .invalidOperand else .ok

/-- The registers the host sees but `STATUS` are the same in both states (10_state.md R21). -/
def SameRegs (s t : State) : Prop :=
  t.cfg = s.cfg ∧ t.len = s.len ∧ t.cap = s.cap ∧ t.flat = s.flat ∧ t.widx = s.widx ∧ t.bidx = s.bidx

/-- What is no part of the block is the same in both states: the script still to come, what the host noted,
and the model's counter of free values. -/
def SameHostSide (s t : State) : Prop :=
  t.script = s.script ∧ t.noted = s.noted ∧ t.free = s.free

/-- Two spaces hold the same stream of `n` bits (20_memory.md R50), whatever their word widths. -/
def SameStream (s : State) (sp : Space) (t : State) (tp : Space) (n : Nat) : Prop :=
  ∀ k, k < n → readFlat t tp k = readFlat s sp k

end Sys2Proof.Machine
end

