-- ==== Sys2Proof/Certificates/Slice0/Obligations.lean ====
section
/-! DEFINITION. The statements for the provers, from the numbered rules of spec/ file by file. Each docstring says
which rule it formalises; where a statement rests on a choice of the model it names the entry of the assumption log. -/

open Sys2Proof Sys2Proof.Machine

/-! ### Encodings and the step -/

/-- The four codes of 30_encoding.md R80, the over-wide value of R83, and the table's words. -/
def Obligations.CommandCodesSelectTheirOperations : Prop :=
  decode 0b00 = .decode ∧ decode 0b01 = .encode ∧ decode 0b10 = .f2wb ∧ decode 0b11 = .wb2f
    ∧ decode 0b100 = .decode ∧ decodeTableWord 8 0b11 = some .wb2f ∧ decodeTableWord 8 0b01 = some .encode

/-- Decoding and encoding agree in both directions, and bits above bit 1 are ignored (30_encoding.md R80, R83). -/
def Obligations.DecodeAndEncodeAgree : Prop :=
  (∀ i : Instr, decode (encode i).toNat = i) ∧ ∀ v : Nat, (encode (decode v)).toNat = v % 4

/-- A host write to `CMD` while the block is idle is `exec` of the command it selects; a host that does nothing
lets the block take an internal step; and a word placed by `withFetchWord` is the next command to run
(assumption log 2). The lines of the step-by-step view (assumption log 7): `start` on an idle block is the acceptance
alone, stage 1 of 30_encoding.md R84, and `tick` is one internal step. -/
def Obligations.StepRunsTheSelectedCommand : Prop :=
  (∀ (s : State) (v : Nat) (rest : List HostAction),
      s.script = .write 0 v :: rest → s.busy = false →
      step s = exec (decode v) { s with script := rest })
  ∧ (∀ s : State, s.script = [] → step s = .next (tick s))
  ∧ (∀ (s : State) (v : Nat) (rest : List HostAction),
      s.script = .start v :: rest → s.busy = false →
      step s = .next (accept (decode v) { s with script := rest }))
  ∧ (∀ (s : State) (rest : List HostAction), s.script = .tick :: rest →
      step s = .next (tick { s with script := rest }))
  ∧ ∀ (s : State) (nbits w : Nat), w < 2 ^ nbits →
      step (s.withFetchWord nbits w)
        = exec (decode w) { s with status := statusWord false s.err, activity := .idle }

/-- 10_state.md R22: `CMD` is no storage; a write starts `trunc_2(v)`, or nothing while `BUSY = 1`; a read gives 0. -/
def Obligations.CmdRegisterStartsCommands : Prop :=
  ∀ (s : State) (v : Nat) (rest : List HostAction),
    (s.script = .write 0 v :: rest → s.busy = false →
      step s = exec (decode (trunc 2 v)) { s with script := rest })
    ∧ (s.script = .write 0 v :: rest → s.busy = true → step s = .next { s with script := rest })
    ∧ (s.script = .read 0 :: rest →
        step s = .next { s with script := rest, noted := s.noted ++ [0] })

/-- 10_state.md R23: `STATUS` is `ERR` above `BUSY`, read-only, and reading it clears nothing. -/
def Obligations.StatusRegisterIsReadOnly : Prop :=
  ∀ (s : State) (v : Nat) (rest : List HostAction),
    (s.script = .write 1 v :: rest → step s = .next { s with script := rest })
    ∧ (s.script = .read 1 :: rest →
        step s = .next { s with
          script := rest
          noted := s.noted ++ [2 * s.err.code.toNat + (if s.busy then 1 else 0)] })

/-- 10_state.md R30: register number 7 reads 0, ignores writes, and neither raises an error. -/
def Obligations.ReservedRegisterIsInert : Prop :=
  ∀ (s : State) (v : Nat) (rest : List HostAction),
    (s.script = .write 7 v :: rest → step s = .next { s with script := rest })
    ∧ (s.script = .read 7 :: rest →
        step s = .next { s with script := rest, noted := s.noted ++ [0] })

/-- 10_state.md R29: the two host actions on `REG`, for every register number, idle and busy. -/
def Obligations.HostReadAndWriteFollowTheTable : Prop :=
  ∀ (s : State) (r : Fin 8) (v : Nat) (rest : List HostAction),
    (s.script = .write r v :: rest →
      (s.busy = true → step s = .next { s with script := rest })
      ∧ (s.busy = false →
          (r = 0 → step s = exec (decode v) { s with script := rest })
          ∧ (r = 1 ∨ r = 7 → step s = .next { s with script := rest })
          ∧ (r = 2 → step s = .next { s with script := rest, len := v % 2 ^ s.cfg.IW })
          ∧ (r = 3 → step s = .next { s with script := rest, cap := v % 2 ^ (s.cfg.IW + 1) })
          ∧ (r = 4 → step s = .next { s with script := rest, flat := v % 2 ^ (s.cfg.IW + 9) })
          ∧ (r = 5 → step s = .next { s with script := rest, widx := v % 2 ^ (s.cfg.IW + 9) })
          ∧ (r = 6 → ∃ b : BitVec 8, b.toNat = v % 2 ^ 8
              ∧ step s = .next { s with script := rest, bidx := b })))
    ∧ (s.script = .read r :: rest →
        ∃ x : Nat, step s = .next { s with script := rest, noted := s.noted ++ [x] }
          ∧ (r = 0 ∨ r = 7 → x = 0) ∧ (r = 1 → x = s.status.toNat) ∧ (r = 2 → x = s.len)
          ∧ (r = 3 → x = s.cap) ∧ (r = 4 → x = s.flat) ∧ (r = 5 → x = s.widx)
          ∧ (r = 6 → x = s.bidx.toNat))

/-- 70_reset_and_hazards.md R229: while `BUSY = 1` every host register write changes nothing, and a read is
allowed and has no effect. -/
def Obligations.WritesWhileBusyAreIgnored : Prop :=
  ∀ (s : State) (r : Fin 8) (v : Nat) (rest : List HostAction), s.busy = true →
    (s.script = .write r v :: rest → step s = .next { s with script := rest })
    ∧ (s.script = .start v :: rest → step s = .next { s with script := rest })
    ∧ (s.script = .read r :: rest → ∃ x : Nat, step s = .next { s with script := rest, noted := s.noted ++ [x] })

/-- A host line that touches a buffer while `BUSY = 1` is a race and stops the machine: the model's reading of
70_reset_and_hazards.md R226 and 30_encoding.md R91 (assumption log 8). -/
def Obligations.BufferAccessWhileBusyIsARace : Prop :=
  ∀ (s : State) (a : HostAction) (rest : List HostAction),
    s.script = a :: rest → s.busy = true → a.touchesBuffer = true → step s = .fault .bufferRace

/-- An instance exists exactly for the legal parameters (00_scope.md R5, R6, R7; 60_exceptions.md R194). -/
def Obligations.ElaborationAcceptsExactlyLegalParameters : Prop :=
  ∀ (W IW : Nat) (P0 : Bit),
    (∃ c : Config, Config.elaborate W IW P0 = .ok c ∧ c.W = W ∧ c.IW = IW ∧ c.P0 = P0)
      ↔ 1 ≤ W ∧ W ≤ 256 ∧ 1 ≤ IW

/-! ### Reset -/

/-- The reset values 10_state.md R39 gives, in `State.reset` and in every other instance's state after reset.
`POL`, `J` and the memories are left open there (assumption log 3 names what `State.reset` holds). -/
def Obligations.ResetStateHasTheTablesValues : Prop :=
  (State.reset.status = 0 ∧ State.reset.len = 0 ∧ State.reset.cap = 0 ∧ State.reset.flat = 0
    ∧ State.reset.widx = 0 ∧ State.reset.bidx = 0)
  ∧ ∀ (c : Config) (pol : Bit) (j : Nat) (mi mo : Memory),
      let s := State.afterReset c pol j mi mo
      s.busy = false ∧ s.err = .ok ∧ s.len = 0 ∧ s.cap = 0 ∧ s.flat = 0 ∧ s.widx = 0 ∧ s.bidx = 0

/-- The state after reset is legal, whatever the spec leaves unspecified holds. -/
def Obligations.ResetStateIsLegal : Prop :=
  Legal State.reset
  ∧ ∀ (c : Config) (pol : Bit) (j : Nat) (mi mo : Memory),
      j < 2 ^ c.FW → Memory.wf c.W mi → Memory.wf c.W mo → Legal (State.afterReset c pol j mi mo)

/-- 70_reset_and_hazards.md R220: the reset input on an idle block clears what the host sees, leaves both memories,
and the block is idle. -/
def Obligations.ResetInputClearsTheRegisters : Prop :=
  ∀ (s : State) (rest : List HostAction), s.script = .reset :: rest → s.busy = false →
    ∃ t, step s = .next t ∧ t.status = 0 ∧ t.len = 0 ∧ t.cap = 0 ∧ t.flat = 0 ∧ t.widx = 0 ∧ t.bidx = 0
      ∧ t.inMem = s.inMem ∧ t.outMem = s.outMem ∧ t.cfg = s.cfg ∧ t.isIdle
      ∧ t.script = rest ∧ t.noted = s.noted

/-- Reset during a command (70_reset_and_hazards.md R221): the command is abandoned, the registers take their reset
values, and only `OUT[0 .. CAP-1]` becomes unspecified. -/
def Obligations.ResetAbandonsARunningCommand : Prop :=
  ∀ (s : State) (rest : List HostAction), s.script = .reset :: rest → s.busy = true →
    ∃ t, step s = .next t ∧ t.status = 0 ∧ t.len = 0 ∧ t.cap = 0 ∧ t.flat = 0 ∧ t.widx = 0 ∧ t.bidx = 0
      ∧ t.isIdle ∧ t.cfg = s.cfg ∧ t.inMem = s.inMem ∧ t.script = rest ∧ t.noted = s.noted
      ∧ ∀ i n, s.cap ≤ i → memReadBit t .output i n = memReadBit s .output i n

/-- 70_reset_and_hazards.md R222: each command straight after a reset, with nothing else written. -/
def Obligations.CommandsStraightAfterReset : Prop :=
  ∀ (s : State) (rest : List HostAction), s.script = .reset :: rest →
    ∃ t, step s = .next t
      ∧ (∃ u, exec .decode t = .next u ∧ u.err = .ok ∧ u.inMem = t.inMem ∧ u.outMem = t.outMem)
      ∧ (∃ u, exec .encode t = .next u ∧ u.err = .ok ∧ u.inMem = t.inMem ∧ u.outMem = t.outMem)
      ∧ (∃ u, exec .f2wb t = .next u ∧ u.err = .ok ∧ u.widx = 0 ∧ u.bidx.toNat = s.cfg.W - 1)
      ∧ (∃ u, exec .wb2f t = .next u ∧ u.err = .ok ∧ u.flat = s.cfg.W - 1)

/-! ### Memory and the bit-index arithmetic -/

/-- 20_memory.md R59: one bit of `OUT` written, all else unchanged. -/
def Obligations.WritingOneBitChangesOneBit : Prop :=
  ∀ (s : State) (i n : Nat) (v : Bit), i < s.cap → n < s.cfg.W →
    memReadBit (memWriteBit s i n v) .output i n = v
    ∧ (∀ i' n', (i', n') ≠ (i, n) →
        memReadBit (memWriteBit s i n v) .output i' n' = memReadBit s .output i' n')
    ∧ (memWriteBit s i n v).inMem = s.inMem
    ∧ SameRegs s (memWriteBit s i n v) ∧ (memWriteBit s i n v).status = s.status
    ∧ (memWriteBit s i n v).pol = s.pol ∧ (memWriteBit s i n v).j = s.j

/-- The host's buffer lines (30_encoding.md R91): a stored word reads back whole, every other word of that space is as
before, and of the rest of the state only the script has changed; a load notes the word and changes nothing else. -/
def Obligations.StoredWordsReadBack : Prop :=
  ∀ (s : State) (i : Nat) (v : Word) (rest : List HostAction), s.busy = false →
    (s.script = .storeIn i v :: rest → v < 2 ^ s.cfg.W →
      ∃ m : Memory,
        let t := { s with script := rest, inMem := m }
        step s = .next t ∧ memRead t .input i = v
          ∧ ∀ i', i' ≠ i → memRead t .input i' = memRead s .input i')
    ∧ (s.script = .storeOut i v :: rest → v < 2 ^ s.cfg.W →
      ∃ m : Memory,
        let t := { s with script := rest, outMem := m }
        step s = .next t ∧ memRead t .output i = v
          ∧ ∀ i', i' ≠ i → memRead t .output i' = memRead s .output i')
    ∧ (s.script = .loadOut i :: rest →
        step s = .next { s with script := rest, noted := s.noted ++ [memRead s .output i] })

/-- 43_bit_index_unit.md R152: the two maps are inverse, reverse order within a word and keep it across words. -/
def Obligations.BitIndexMapsAreInverse : Prop :=
  ∀ W : Nat, 1 ≤ W →
    (∀ k, wb2f W (f2wb W k).1 (f2wb W k).2 = k)
    ∧ (∀ w n, n < W → f2wb W (wb2f W w n) = (w, n))
    ∧ (∀ k k', k < k' → (f2wb W k).1 = (f2wb W k').1 → (f2wb W k').2 < (f2wb W k).2)
    ∧ (∀ w n w' n', n < W → n' < W → w < w' → wb2f W w n < wb2f W w' n')

/-- When a pair straddles two words, and where its halves then lie (20_memory.md section 2, 43_bit_index_unit.md section 3). -/
def Obligations.PairStraddlesOnlyForOddWidth : Prop :=
  ∀ W j : Nat, 1 ≤ W →
    ((f2wb W (2 * j)).1 ≠ (f2wb W (2 * j + 1)).1 ↔ W % 2 = 1 ∧ 2 * j % W = W - 1)
    ∧ ((f2wb W (2 * j)).1 ≠ (f2wb W (2 * j + 1)).1 →
        (f2wb W (2 * j)).2 = 0 ∧ f2wb W (2 * j + 1) = ((f2wb W (2 * j)).1 + 1, W - 1))

/-- Every flat position and every word count of a command fits its width, so no arithmetic wraps (00_scope.md
sections 4 and 6). -/
def Obligations.NoCommandArithmeticWraps : Prop :=
  ∀ s : State, Legal s →
    2 * (s.len * s.cfg.W) < 2 ^ s.cfg.FW ∧ 2 * s.len < 2 ^ s.cfg.CW ∧ (s.len + 1) / 2 < 2 ^ s.cfg.CW

/-- 43_bit_index_unit.md R153: `F2WB` always completes; its results fit their registers; nothing else changes. -/
def Obligations.F2wbWritesWordAndBitIndex : Prop :=
  ∀ s : State, ∃ b : BitVec 8,
    exec .f2wb s = .next { s with
      widx := s.flat / s.cfg.W, bidx := b, status := statusWord false .ok, activity := .idle }
    ∧ b.toNat = s.cfg.W - 1 - s.flat % s.cfg.W
    ∧ (s.flat < 2 ^ s.cfg.FW → s.flat / s.cfg.W < 2 ^ s.cfg.FW)

/-- 43_bit_index_unit.md R154: `WB2F`, its result and its two errors. -/
def Obligations.Wb2fWritesFlatPositionOrRaises : Prop :=
  ∀ s : State,
    let k := s.widx * s.cfg.W + (s.cfg.W - 1 - s.bidx.toNat)
    (s.bidx.toNat < s.cfg.W → k < 2 ^ s.cfg.FW →
      exec .wb2f s = .next { s with flat := k, status := statusWord false .ok, activity := .idle })
    ∧ (s.cfg.W ≤ s.bidx.toNat ∨ 2 ^ s.cfg.FW ≤ k →
      exec .wb2f s = .next { s with status := statusWord false .invalidOperand, activity := .idle })

/-- 43_bit_index_unit.md R156: either command followed by the other gives the registers back. -/
def Obligations.BitIndexRegistersRoundTrip : Prop :=
  (∀ s t u : State, s.flat < 2 ^ s.cfg.FW → exec .f2wb s = .next t → exec .wb2f t = .next u →
      u.flat = s.flat ∧ u.err = .ok)
  ∧ ∀ s t u : State, s.bidx.toNat < s.cfg.W →
      s.widx * s.cfg.W + (s.cfg.W - 1 - s.bidx.toNat) < 2 ^ s.cfg.FW →
      exec .wb2f s = .next t → exec .f2wb t = .next u → u.widx = s.widx ∧ u.bidx = s.bidx

/-! ### The symbol code -/

/-- 30_encoding.md R86 and R87: the four symbols of the encoder, the four pairs of the decoder. -/
def Obligations.SymbolCodeFollowsTheTables : Prop :=
  symbol false false = (false, false) ∧ symbol false true = (false, true)
    ∧ symbol true false = (true, true) ∧ symbol true true = (true, false)
    ∧ pairBit false false = false ∧ pairBit false true = true
    ∧ pairBit true false = true ∧ pairBit true true = false
    ∧ ∀ p d : Bit, pairBit (symbol p d).1 (symbol p d).2 = d

/-! ### DECODE -/

/-- 41_decoder.md R112 and 44_codec_laws.md R172: when both checks pass, data bit `j` is the difference of the pair
`e[2j], e[2j+1]`, straddling or not; every flat position from `M` on and all of `IN` are unchanged; the result is `OK`. -/
def Obligations.DecodeWritesPairDifferences : Prop :=
  ∀ s : State, s.len * s.cfg.W % 2 = 0 → (s.len + 1) / 2 ≤ s.cap →
    ∃ t, exec .decode s = .next t ∧ t.err = .ok ∧ t.busy = false ∧ t.inMem = s.inMem
      ∧ (∀ j, j < s.len * s.cfg.W / 2 →
          readFlat t .output j = (readFlat s .input (2 * j) ^^ readFlat s .input (2 * j + 1)))
      ∧ ∀ k, s.len * s.cfg.W / 2 ≤ k → readFlat t .output k = readFlat s .output k

/-- What `DECODE` leaves unchanged (10_state.md section 10): every register but `STATUS` and the internal counter,
`POL`, all of `IN`, and every bit of `OUT` that is not the place of a data bit. -/
def Obligations.DecodeFrame : Prop :=
  ∀ s t : State, exec .decode s = .next t →
    SameRegs s t ∧ SameHostSide s t ∧ t.pol = s.pol ∧ t.inMem = s.inMem ∧ t.isIdle
    ∧ ∀ i n, (∀ k, k < s.len * s.cfg.W / 2 → f2wb s.cfg.W k ≠ (i, n)) →
        memReadBit t .output i n = memReadBit s .output i n

/-- 41_decoder.md R113: the word-level form for even `W`. -/
def Obligations.DecodeWordFormForEvenWidth : Prop :=
  ∀ s : State, s.cfg.W % 2 = 0 → (s.len + 1) / 2 ≤ s.cap →
    ∃ t, exec .decode s = .next t
      ∧ ∀ i q, i < s.len → q < s.cfg.W / 2 →
          memReadBit t .output (i / 2) (if i % 2 = 0 then s.cfg.W - 1 - q else s.cfg.W / 2 - 1 - q)
            = (memReadBit s .input i (s.cfg.W - 1 - 2 * q) ^^ memReadBit s .input i (s.cfg.W - 2 - 2 * q))

/-- 41_decoder.md R114: when the last output word is written in part, which part, and that the rest is preserved. -/
def Obligations.DecodePreservesTheLowHalfOfAPartialWord : Prop :=
  ∀ s : State, s.len * s.cfg.W % 2 = 0 →
    (s.len * s.cfg.W / 2 % s.cfg.W ≠ 0 ↔ s.cfg.W % 2 = 0 ∧ s.len % 2 = 1)
    ∧ (s.cfg.W % 2 = 0 → s.len % 2 = 1 → (s.len + 1) / 2 ≤ s.cap →
        s.len * s.cfg.W / 2 % s.cfg.W = s.cfg.W / 2
        ∧ ∃ t, exec .decode s = .next t
          ∧ (∀ n, n < s.cfg.W / 2 →
              memReadBit t .output ((s.len - 1) / 2) n = memReadBit s .output ((s.len - 1) / 2) n)
          ∧ ∀ n, s.cfg.W / 2 ≤ n → n < s.cfg.W →
              let k := wb2f s.cfg.W ((s.len - 1) / 2) n
              memReadBit t .output ((s.len - 1) / 2) n
                = (readFlat s .input (2 * k) ^^ readFlat s .input (2 * k + 1)))

/-! ### ENCODE -/

/-- 42_encoder.md R132: when the check passes, the first half of every symbol continues the level, the second half
changes it for a data bit 1, the level before the first symbol is `P0`; nothing from `2T` on and nothing of `IN`
changes; the result is `OK`; and `POL` ends as the last line bit emitted. -/
def Obligations.EncodeWritesSymbols : Prop :=
  ∀ s : State, 2 * s.len ≤ s.cap →
    ∃ t, exec .encode s = .next t ∧ t.err = .ok ∧ t.busy = false ∧ t.inMem = s.inMem
      ∧ (∀ j, j < s.len * s.cfg.W →
          readFlat t .output (2 * j) = (if j = 0 then s.cfg.P0 else readFlat t .output (2 * j - 1))
          ∧ readFlat t .output (2 * j + 1) = (readFlat t .output (2 * j) ^^ readFlat s .input j))
      ∧ (∀ k, 2 * (s.len * s.cfg.W) ≤ k → readFlat t .output k = readFlat s .output k)
      ∧ t.pol = (if s.len * s.cfg.W = 0 then s.cfg.P0
                 else readFlat t .output (2 * (s.len * s.cfg.W) - 1))

/-- What `ENCODE` leaves unchanged (10_state.md section 10): every register but `STATUS`, `POL` and the internal
counter, all of `IN`, and every bit of `OUT` that is not the place of a line bit. -/
def Obligations.EncodeFrame : Prop :=
  ∀ s t : State, exec .encode s = .next t →
    SameRegs s t ∧ SameHostSide s t ∧ t.inMem = s.inMem ∧ t.isIdle
    ∧ ∀ i n, (∀ k, k < 2 * (s.len * s.cfg.W) → f2wb s.cfg.W k ≠ (i, n)) →
        memReadBit t .output i n = memReadBit s .output i n

/-- 42_encoder.md R134: every line bit is `P0` xor a prefix parity of the data; the output for one `P0` is the
complement of the output for the other; the level changes in mid-symbol exactly for a data bit 1, never between symbols. -/
def Obligations.EncodeClosedForm : Prop :=
  (∀ s t : State, 2 * s.len ≤ s.cap → exec .encode s = .next t →
    ∀ j, j < s.len * s.cfg.W →
      readFlat t .output (2 * j) = (s.cfg.P0 ^^ prefixParity (readFlat s .input) j)
      ∧ readFlat t .output (2 * j + 1) = (s.cfg.P0 ^^ prefixParity (readFlat s .input) (j + 1))
      ∧ (readFlat t .output (2 * j) ≠ readFlat t .output (2 * j + 1) ↔ readFlat s .input j = true)
      ∧ (j + 1 < s.len * s.cfg.W → readFlat t .output (2 * (j + 1)) = readFlat t .output (2 * j + 1)))
  ∧ ∀ (s t t' : State) (c : Config), c.W = s.cfg.W → c.IW = s.cfg.IW → c.P0 = !s.cfg.P0 →
      2 * s.len ≤ s.cap → exec .encode s = .next t → exec .encode { s with cfg := c } = .next t' →
      ∀ k, k < 2 * (s.len * s.cfg.W) → readFlat t' .output k = !readFlat t .output k

/-- 42_encoder.md R136: every bit of `OUT[0 .. 2*LEN-1]` is written, and its earlier contents do not matter. -/
def Obligations.EncodeOverwritesEveryBit : Prop :=
  ∀ (s t t' : State) (m : Memory), 2 * s.len ≤ s.cap →
    exec .encode s = .next t → exec .encode { s with outMem := m } = .next t' →
    ∀ i, i < 2 * s.len → memRead t' .output i = memRead t .output i

/-- 42_encoder.md R135: the word-level form for even `W`: the halves of data word `i` give `OUT[2i]` and
`OUT[2i+1]`, symbol `q` of an output word stands in its bits `W-1-2q` and `W-2-2q`, and the level runs on from bit 0
of the word before. -/
def Obligations.EncodeWordFormForEvenWidth : Prop :=
  ∀ s : State, s.cfg.W % 2 = 0 → 2 * s.len ≤ s.cap →
    ∃ t, exec .encode s = .next t
      ∧ ∀ i, i < s.len →
          memReadBit t .output (2 * i) (s.cfg.W - 1)
            = (if i = 0 then s.cfg.P0 else memReadBit t .output (2 * i - 1) 0)
          ∧ memReadBit t .output (2 * i + 1) (s.cfg.W - 1) = memReadBit t .output (2 * i) 0
          ∧ ∀ q, q < s.cfg.W / 2 →
              memReadBit t .output (2 * i) (s.cfg.W - 2 - 2 * q)
                = (memReadBit t .output (2 * i) (s.cfg.W - 1 - 2 * q) ^^ memReadBit s .input i (s.cfg.W - 1 - q))
              ∧ memReadBit t .output (2 * i + 1) (s.cfg.W - 2 - 2 * q)
                = (memReadBit t .output (2 * i + 1) (s.cfg.W - 1 - 2 * q)
                    ^^ memReadBit s .input i (s.cfg.W / 2 - 1 - q))
              ∧ (q + 1 < s.cfg.W / 2 →
                  memReadBit t .output (2 * i) (s.cfg.W - 1 - 2 * (q + 1))
                    = memReadBit t .output (2 * i) (s.cfg.W - 2 - 2 * q)
                  ∧ memReadBit t .output (2 * i + 1) (s.cfg.W - 1 - 2 * (q + 1))
                    = memReadBit t .output (2 * i + 1) (s.cfg.W - 2 - 2 * q))

/-! ### The laws of the codec -/

/-- 44_codec_laws.md R174, 41_decoder.md R116, 42_encoder.md R137: with `LEN = 0` both commands end with `OK` for every
`CAP`; nothing is written to `OUT`, and what `IN` and `OUT` hold decides nothing; `ENCODE` leaves `POL = P0`. The
internal counter `J` may end at any value `n`. -/
def Obligations.EmptyInputIsANoOp : Prop :=
  ∀ s : State, s.len = 0 →
    (∃ n : Nat, ∀ mi mo : Memory, exec .decode { s with inMem := mi, outMem := mo } = .next { s with
        inMem := mi, outMem := mo, j := n, status := statusWord false .ok, activity := .idle })
    ∧ ∃ n : Nat, ∀ mi mo : Memory, exec .encode { s with inMem := mi, outMem := mo } = .next { s with
        inMem := mi, outMem := mo, pol := s.cfg.P0, j := n, status := statusWord false .ok, activity := .idle }

/-- 44_codec_laws.md R170: encoding a data stream and decoding the result gives the data back, word for word, for
every width, polarity, length and contents. -/
def Obligations.DecodeOfEncodeGivesTheDataBack : Prop :=
  ∀ s : State, 2 * s.len ≤ s.cap →
    ∃ t, exec .encode s = .next t ∧ t.err = .ok
      ∧ ∀ u : State, u.cfg.W = s.cfg.W → u.len = 2 * s.len → s.len ≤ u.cap →
          (∀ i, i < 2 * s.len → memRead u .input i = memRead t .output i) →
          ∃ v, exec .decode u = .next v ∧ v.err = .ok
            ∧ ∀ i, i < s.len → memRead v .output i = memRead s .input i

/-- 44_codec_laws.md R171: a successful `DECODE` writes exactly flat positions `0 .. M-1`, a successful `ENCODE`
exactly `0 .. 2T-1`: those do not depend on what `OUT` held, all others keep it. -/
def Obligations.LengthLaw : Prop :=
  ∀ (s t t' : State) (m : Memory),
    (exec .decode s = .next t → exec .decode { s with outMem := m } = .next t' → t.err = .ok →
      (∀ k, k < s.len * s.cfg.W / 2 → readFlat t' .output k = readFlat t .output k)
      ∧ (∀ k, s.len * s.cfg.W / 2 ≤ k → readFlat t .output k = readFlat s .output k)
      ∧ 2 * (s.len * s.cfg.W / 2) = s.len * s.cfg.W)
    ∧ (exec .encode s = .next t → exec .encode { s with outMem := m } = .next t' → t.err = .ok →
      (∀ k, k < 2 * (s.len * s.cfg.W) → readFlat t' .output k = readFlat t .output k)
      ∧ ∀ k, 2 * (s.len * s.cfg.W) ≤ k → readFlat t .output k = readFlat s .output k)

/-- 44_codec_laws.md R173: equal flat streams in words of any two widths decode, and encode, to equal flat streams. -/
def Obligations.ResultsDoNotDependOnWordWidth : Prop :=
  ∀ s s' t t' : State, s'.len * s'.cfg.W = s.len * s.cfg.W →
    SameStream s .input s' .input (s.len * s.cfg.W) →
    (exec .decode s = .next t → exec .decode s' = .next t' → t.err = .ok → t'.err = .ok →
      SameStream t .output t' .output (s.len * s.cfg.W / 2))
    ∧ (s'.cfg.P0 = s.cfg.P0 → exec .encode s = .next t → exec .encode s' = .next t' →
        t.err = .ok → t'.err = .ok → SameStream t .output t' .output (2 * (s.len * s.cfg.W)))

/-- 44_codec_laws.md R175: too small a `CAP` is reported and leaves `OUT` bit for bit; and no command in any state
changes a word of `OUT` at or above `CAP`. -/
def Obligations.NoCommandWritesPastTheBuffer : Prop :=
  (∀ s : State, s.cap < (s.len + 1) / 2 →
      ∃ t, exec .decode s = .next t ∧ t.outMem = s.outMem
        ∧ t.err = (if s.len * s.cfg.W % 2 = 1 then .invalidLength else .insufficientBuffer))
  ∧ (∀ s : State, s.cap < 2 * s.len →
      ∃ t, exec .encode s = .next t ∧ t.outMem = s.outMem ∧ t.err = .insufficientBuffer)
  ∧ ∀ (i : Instr) (s t : State), exec i s = .next t →
      ∀ w n, s.cap ≤ w → memReadBit t .output w n = memReadBit s .output w n

/-- 44_codec_laws.md R176: a command is a function of the parameters, the operand registers and the contents of
`IN[0 .. LEN-1]` and `OUT`: not of `POL`, `J`, `STATUS` or anything else. -/
def Obligations.CommandsAreFunctionsOfTheirInputs : Prop :=
  ∀ (i : Instr) (s s' t t' : State), SameRegs s s' →
    (∀ w n, w < s.len → n < s.cfg.W → memReadBit s' .input w n = memReadBit s .input w n) →
    (∀ w n, memReadBit s' .output w n = memReadBit s .output w n) →
    exec i s = .next t → exec i s' = .next t' →
    SameRegs t t' ∧ t'.status = t.status
      ∧ ∀ w n, memReadBit t' .output w n = memReadBit t .output w n

/-- The decoder is polarity-independent (44_codec_laws.md, 41_decoder.md): complementing every line bit of its input
changes no data bit. -/
def Obligations.DecodeIgnoresPolarity : Prop :=
  ∀ s s' t t' : State, s'.cfg.W = s.cfg.W → s'.len = s.len →
    (∀ k, k < s.len * s.cfg.W → readFlat s' .input k = !readFlat s .input k) →
    exec .decode s = .next t → exec .decode s' = .next t' → t.err = .ok → t'.err = .ok →
    SameStream t .output t' .output (s.len * s.cfg.W / 2)

/-- 44_codec_laws.md R178: encoding what a line stream decodes to gives the stream back exactly when it starts at `P0`
and keeps its level between symbols (for a stream with a whole number of words of data); and it does not in general:
with `W = 8` and `P0 = 1` the stream `0xAA, 0x55` decodes to `0xFF`, which encodes to `0x99, 0x99`. -/
def Obligations.EncodeOfDecodeIsNotALaw : Prop :=
  (∀ s t u v : State, exec .decode s = .next t → t.err = .ok →
    u.cfg = s.cfg → 2 * (u.len * s.cfg.W) = s.len * s.cfg.W →
    SameStream t .output u .input (u.len * s.cfg.W) →
    exec .encode u = .next v → v.err = .ok →
    (SameStream s .input v .output (s.len * s.cfg.W) ↔
      (0 < s.len → readFlat s .input 0 = s.cfg.P0)
      ∧ ∀ j, 0 < j → j < u.len * s.cfg.W → readFlat s .input (2 * j) = readFlat s .input (2 * j - 1)))
  ∧ ∃ s t u v : State, s.cfg.W = 8 ∧ s.cfg.P0 = true ∧ s.len = 2
      ∧ memRead s .input 0 = 0xAA ∧ memRead s .input 1 = 0x55
      ∧ exec .decode s = .next t ∧ t.err = .ok ∧ memRead t .output 0 = 0xFF
      ∧ u.cfg = s.cfg ∧ u.len = 1 ∧ SameStream t .output u .input 8
      ∧ exec .encode u = .next v ∧ v.err = .ok
      ∧ memRead v .output 0 = 0x99 ∧ memRead v .output 1 = 0x99
      ∧ ¬ SameStream s .input v .output 16

/-! ### Errors -/

/-- 60_exceptions.md R191, R192, R193 and R197: every command completes with the one result code these rules give it,
decided from the registers and parameters alone. -/
def Obligations.EveryCommandEndsWithItsResultCode : Prop :=
  ∀ (i : Instr) (s : State), ∃ t, exec i s = .next t ∧ t.busy = false ∧ t.err = expectedErr i s

/-- 60_exceptions.md R198: a command that ends with an error has changed `STATUS` and nothing else. -/
def Obligations.ErrorsChangeStatusOnly : Prop :=
  ∀ (i : Instr) (s : State), expectedErr i s ≠ .ok →
    exec i s = .next { s with status := statusWord false (expectedErr i s), activity := .idle }

/-- Issuing a command again with nothing changed gives the same error again (60_exceptions.md section 4), and a
successful command run again leaves `OUT`, the registers and `STATUS` as its first run left them (20_memory.md section 3). -/
def Obligations.RepeatingACommandChangesNothing : Prop :=
  ∀ (i : Instr) (s t : State), exec i s = .next t →
    (t.err ≠ .ok → exec i t = .next t)
    ∧ (t.err = .ok → ∃ u, exec i t = .next u ∧ u.status = t.status ∧ SameRegs t u
        ∧ ∀ w n, memReadBit u .output w n = memReadBit t .output w n)

/-! ### The whole machine -/

/-- Every step from a legal state gives a legal state: widths, canonical memories, `BUSY` true to the command in
progress, a running command within its bound (10_state.md sections 2, 7 and 8). -/
def Obligations.EveryStepKeepsTheStateLegal : Prop :=
  ∀ s t : State, Legal s → step s = .next t → Legal t

/-- No step changes a parameter of the instance (10_state.md section 1). -/
def Obligations.ParametersNeverChange : Prop :=
  ∀ s t : State, step s = .next t → t.cfg = s.cfg

/-- Only the host's own store line writes `IN`: no command, no reset, no other line does (10_state.md section 8). -/
def Obligations.OnlyTheHostWritesIN : Prop :=
  ∀ s t : State, step s = .next t → (∀ i v rest, s.script ≠ .storeIn i v :: rest) → t.inMem = s.inMem

/-- `STATUS.ERR` changes only when a command completes or at a reset (10_state.md section 2, 60_exceptions.md section 4). -/
def Obligations.OnlyCompletionsAndResetWriteErr : Prop :=
  ∀ s t : State, step s = .next t → t.err ≠ s.err →
    (∃ rest, s.script = .reset :: rest)
    ∨ (∃ v rest, s.script = .write 0 v :: rest ∧ s.busy = false ∧ t.busy = false)
    ∨ (s.activity ≠ .idle ∧ t.busy = false)

/-- In the atomic view every line of the notation is answered by a next state that is idle again, so no host that
obeys it is ever stopped (00_scope.md section 5, 70_reset_and_hazards.md section 3). -/
def Obligations.AtomicLinesNeverStop : Prop :=
  ∀ (s : State) (a : HostAction) (rest : List HostAction),
    s.isIdle → s.script = a :: rest → a.atomic = true → a.wellFormed s.cfg = true →
    ∃ t, step s = .next t ∧ t.isIdle ∧ t.script = rest

/-- The atomic view is sound (70_reset_and_hazards.md section 4, 30_encoding.md section 1): an accepted command, run step
by step, completes in exactly the state `exec` gives, and until then shows the host `BUSY = 1`, the old `ERR` and unchanged
registers. The bound `LEN * W + 2` is the model's choice: it counts the model's own internal steps (assumption log 7), and
the spec gives no count. -/
def Obligations.StepwiseRunEqualsTheAtomicCommand : Prop :=
  ∀ (i : Instr) (s : State), ∃ n t, n ≤ s.len * s.cfg.W + 2 ∧ exec i s = .next t
    ∧ tick^[n] (accept i s) = t
    ∧ ∀ m, m < n →
        let u := tick^[m] (accept i s)
        u.busy = true ∧ u.err = s.err ∧ SameRegs s u ∧ u.inMem = s.inMem

/-- One internal step of a busy block (70_reset_and_hazards.md section 3; what one step is, assumption log 7): it leaves `LEN`, `CAP`, the parameters, `IN`
and every word of `OUT` at or above `CAP` alone, and unless it completes the command it shows the host no change. -/
def Obligations.InternalStepsShowTheHostNothing : Prop :=
  ∀ s : State, Legal s → s.busy = true →
    (tick s).cfg = s.cfg ∧ (tick s).len = s.len ∧ (tick s).cap = s.cap ∧ (tick s).inMem = s.inMem
    ∧ SameHostSide s (tick s)
    ∧ (∀ w n, s.cap ≤ w → memReadBit (tick s) .output w n = memReadBit s .output w n)
    ∧ ((tick s).busy = true → SameRegs s (tick s) ∧ (tick s).status = s.status)
    ∧ ((tick s).busy = false → (tick s).activity = .idle)

/-- `WAIT` always ends (30_encoding.md section 5, 70_reset_and_hazards.md section 4), from every legal state, and the
value noted is `STATUS` with `BUSY = 0`. The bound `LEN * W + 3` is the model's choice: it counts the model's own internal
steps and its one poll per step (assumption log 7), and the spec gives no count. -/
def Obligations.WaitAlwaysEnds : Prop :=
  ∀ (s : State) (rest : List HostAction), Legal s → s.script = .wait :: rest →
    ∃ n t, n ≤ s.len * s.cfg.W + 3 ∧ Host.Core.run Sys2Proof.core n s = .next t
      ∧ t.script = rest ∧ t.busy = false ∧ t.noted = s.noted ++ [t.status.toNat]
end

