-- ==== Sys2Proof/Laws/State.lean ====
section
/-! SUPPORT. One lemma per field per named update of the state, true by unfolding once, so that no later proof
unfolds a record update; and the two fields of STATUS after each update. -/

namespace Sys2Proof.Machine

/-! The fields of STATUS. -/

theorem ofCode_code (e : ErrCode) : ErrCode.ofCode e.code = e := by cases e <;> rfl

theorem statusWord_busy (b : Bit) (e : ErrCode) : (statusWord b e).getLsbD 0 = b := by
  cases b <;> cases e <;> rfl

theorem statusWord_err (b : Bit) (e : ErrCode) : ErrCode.ofCode ((statusWord b e).extractLsb' 1 2) = e := by
  cases b <;> cases e <;> rfl

theorem statusWord_of_fields : ∀ st : BitVec 3,
    statusWord (st.getLsbD 0) (ErrCode.ofCode (st.extractLsb' 1 2)) = st := by decide

@[simp] theorem finish_status (e : ErrCode) (s : State) : (finish e s).status = statusWord false e := rfl
@[simp] theorem finish_activity (e : ErrCode) (s : State) : (finish e s).activity = .idle := rfl
@[simp] theorem finish_busy (e : ErrCode) (s : State) : (finish e s).busy = false := statusWord_busy false e
@[simp] theorem finish_err (e : ErrCode) (s : State) : (finish e s).err = e := statusWord_err false e

@[simp] theorem accept_status (op : Instr) (s : State) : (accept op s).status = statusWord true s.err := rfl
@[simp] theorem accept_activity (op : Instr) (s : State) : (accept op s).activity = .accepted op := rfl
@[simp] theorem accept_busy (op : Instr) (s : State) : (accept op s).busy = true := statusWord_busy true s.err
@[simp] theorem accept_err (op : Instr) (s : State) : (accept op s).err = s.err := statusWord_err true s.err

@[simp] theorem raise_eq_finish (e : ErrCode) (s : State) : raise e s = finish e s := rfl
@[simp] theorem complete_eq_finish (s : State) : complete s = finish .ok s := rfl

/-! The fields that change. -/

@[simp] theorem note_noted (v : Nat) (s : State) : (note v s).noted = s.noted ++ [v] := rfl
@[simp] theorem memWriteBit_outMem (i n : Nat) (v : Bit) (s : State) :
    (memWriteBit s i n v).outMem = s.outMem.writeBit i n v := rfl
@[simp] theorem storeInWord_inMem (i : Nat) (v : Word) (s : State) :
    (storeInWord s i v).inMem = s.inMem.writeWord s.cfg.W i v := rfl
@[simp] theorem storeOutWord_outMem (i : Nat) (v : Word) (s : State) :
    (storeOutWord s i v).outMem = s.outMem.writeWord s.cfg.W i v := rfl
@[simp] theorem decodeStart_j (s : State) : (decodeStart s).j = 0 := rfl
@[simp] theorem encodeStart_j (s : State) : (encodeStart s).j = 0 := rfl
@[simp] theorem encodeStart_pol (s : State) : (encodeStart s).pol = s.cfg.P0 := rfl
@[simp] theorem decodePosition_j (s : State) : (decodePosition s).j = s.j + 1 := rfl
@[simp] theorem encodePosition_j (s : State) : (encodePosition s).j = s.j + 1 := rfl
@[simp] theorem encodePosition_pol (s : State) :
    (encodePosition s).pol = (s.pol ^^ readFlat s .input s.j) := rfl
@[simp] theorem applyReset_activity (s : State) : (applyReset s).activity = .idle := rfl
@[simp] theorem applyReset_status (s : State) : (applyReset s).status = 0b000#3 := rfl

/-! The fields that do not. -/

/-! `finish` -/

@[simp] theorem finish_cfg (e : ErrCode) (s : State) : (finish e s).cfg = s.cfg := rfl
@[simp] theorem finish_len (e : ErrCode) (s : State) : (finish e s).len = s.len := rfl
@[simp] theorem finish_cap (e : ErrCode) (s : State) : (finish e s).cap = s.cap := rfl
@[simp] theorem finish_flat (e : ErrCode) (s : State) : (finish e s).flat = s.flat := rfl
@[simp] theorem finish_widx (e : ErrCode) (s : State) : (finish e s).widx = s.widx := rfl
@[simp] theorem finish_bidx (e : ErrCode) (s : State) : (finish e s).bidx = s.bidx := rfl
@[simp] theorem finish_pol (e : ErrCode) (s : State) : (finish e s).pol = s.pol := rfl
@[simp] theorem finish_j (e : ErrCode) (s : State) : (finish e s).j = s.j := rfl
@[simp] theorem finish_inMem (e : ErrCode) (s : State) : (finish e s).inMem = s.inMem := rfl
@[simp] theorem finish_outMem (e : ErrCode) (s : State) : (finish e s).outMem = s.outMem := rfl
@[simp] theorem finish_script (e : ErrCode) (s : State) : (finish e s).script = s.script := rfl
@[simp] theorem finish_noted (e : ErrCode) (s : State) : (finish e s).noted = s.noted := rfl
@[simp] theorem finish_free (e : ErrCode) (s : State) : (finish e s).free = s.free := rfl

/-! `accept` -/

@[simp] theorem accept_cfg (op : Instr) (s : State) : (accept op s).cfg = s.cfg := rfl
@[simp] theorem accept_len (op : Instr) (s : State) : (accept op s).len = s.len := rfl
@[simp] theorem accept_cap (op : Instr) (s : State) : (accept op s).cap = s.cap := rfl
@[simp] theorem accept_flat (op : Instr) (s : State) : (accept op s).flat = s.flat := rfl
@[simp] theorem accept_widx (op : Instr) (s : State) : (accept op s).widx = s.widx := rfl
@[simp] theorem accept_bidx (op : Instr) (s : State) : (accept op s).bidx = s.bidx := rfl
@[simp] theorem accept_pol (op : Instr) (s : State) : (accept op s).pol = s.pol := rfl
@[simp] theorem accept_j (op : Instr) (s : State) : (accept op s).j = s.j := rfl
@[simp] theorem accept_inMem (op : Instr) (s : State) : (accept op s).inMem = s.inMem := rfl
@[simp] theorem accept_outMem (op : Instr) (s : State) : (accept op s).outMem = s.outMem := rfl
@[simp] theorem accept_script (op : Instr) (s : State) : (accept op s).script = s.script := rfl
@[simp] theorem accept_noted (op : Instr) (s : State) : (accept op s).noted = s.noted := rfl
@[simp] theorem accept_free (op : Instr) (s : State) : (accept op s).free = s.free := rfl

/-! `note` -/

@[simp] theorem note_cfg (v : Nat) (s : State) : (note v s).cfg = s.cfg := rfl
@[simp] theorem note_status (v : Nat) (s : State) : (note v s).status = s.status := rfl
@[simp] theorem note_len (v : Nat) (s : State) : (note v s).len = s.len := rfl
@[simp] theorem note_cap (v : Nat) (s : State) : (note v s).cap = s.cap := rfl
@[simp] theorem note_flat (v : Nat) (s : State) : (note v s).flat = s.flat := rfl
@[simp] theorem note_widx (v : Nat) (s : State) : (note v s).widx = s.widx := rfl
@[simp] theorem note_bidx (v : Nat) (s : State) : (note v s).bidx = s.bidx := rfl
@[simp] theorem note_pol (v : Nat) (s : State) : (note v s).pol = s.pol := rfl
@[simp] theorem note_j (v : Nat) (s : State) : (note v s).j = s.j := rfl
@[simp] theorem note_inMem (v : Nat) (s : State) : (note v s).inMem = s.inMem := rfl
@[simp] theorem note_outMem (v : Nat) (s : State) : (note v s).outMem = s.outMem := rfl
@[simp] theorem note_activity (v : Nat) (s : State) : (note v s).activity = s.activity := rfl
@[simp] theorem note_script (v : Nat) (s : State) : (note v s).script = s.script := rfl
@[simp] theorem note_free (v : Nat) (s : State) : (note v s).free = s.free := rfl

/-! `memWriteBit` -/

@[simp] theorem memWriteBit_cfg (i n : Nat) (v : Bit) (s : State) : (memWriteBit s i n v).cfg = s.cfg := rfl
@[simp] theorem memWriteBit_status (i n : Nat) (v : Bit) (s : State) : (memWriteBit s i n v).status = s.status := rfl
@[simp] theorem memWriteBit_len (i n : Nat) (v : Bit) (s : State) : (memWriteBit s i n v).len = s.len := rfl
@[simp] theorem memWriteBit_cap (i n : Nat) (v : Bit) (s : State) : (memWriteBit s i n v).cap = s.cap := rfl
@[simp] theorem memWriteBit_flat (i n : Nat) (v : Bit) (s : State) : (memWriteBit s i n v).flat = s.flat := rfl
@[simp] theorem memWriteBit_widx (i n : Nat) (v : Bit) (s : State) : (memWriteBit s i n v).widx = s.widx := rfl
@[simp] theorem memWriteBit_bidx (i n : Nat) (v : Bit) (s : State) : (memWriteBit s i n v).bidx = s.bidx := rfl
@[simp] theorem memWriteBit_pol (i n : Nat) (v : Bit) (s : State) : (memWriteBit s i n v).pol = s.pol := rfl
@[simp] theorem memWriteBit_j (i n : Nat) (v : Bit) (s : State) : (memWriteBit s i n v).j = s.j := rfl
@[simp] theorem memWriteBit_inMem (i n : Nat) (v : Bit) (s : State) : (memWriteBit s i n v).inMem = s.inMem := rfl
@[simp] theorem memWriteBit_activity (i n : Nat) (v : Bit) (s : State) : (memWriteBit s i n v).activity = s.activity := rfl
@[simp] theorem memWriteBit_script (i n : Nat) (v : Bit) (s : State) : (memWriteBit s i n v).script = s.script := rfl
@[simp] theorem memWriteBit_noted (i n : Nat) (v : Bit) (s : State) : (memWriteBit s i n v).noted = s.noted := rfl
@[simp] theorem memWriteBit_free (i n : Nat) (v : Bit) (s : State) : (memWriteBit s i n v).free = s.free := rfl

/-! `writeFlat` -/

@[simp] theorem writeFlat_cfg (k : Nat) (v : Bit) (s : State) : (writeFlat s k v).cfg = s.cfg := rfl
@[simp] theorem writeFlat_status (k : Nat) (v : Bit) (s : State) : (writeFlat s k v).status = s.status := rfl
@[simp] theorem writeFlat_len (k : Nat) (v : Bit) (s : State) : (writeFlat s k v).len = s.len := rfl
@[simp] theorem writeFlat_cap (k : Nat) (v : Bit) (s : State) : (writeFlat s k v).cap = s.cap := rfl
@[simp] theorem writeFlat_flat (k : Nat) (v : Bit) (s : State) : (writeFlat s k v).flat = s.flat := rfl
@[simp] theorem writeFlat_widx (k : Nat) (v : Bit) (s : State) : (writeFlat s k v).widx = s.widx := rfl
@[simp] theorem writeFlat_bidx (k : Nat) (v : Bit) (s : State) : (writeFlat s k v).bidx = s.bidx := rfl
@[simp] theorem writeFlat_pol (k : Nat) (v : Bit) (s : State) : (writeFlat s k v).pol = s.pol := rfl
@[simp] theorem writeFlat_j (k : Nat) (v : Bit) (s : State) : (writeFlat s k v).j = s.j := rfl
@[simp] theorem writeFlat_inMem (k : Nat) (v : Bit) (s : State) : (writeFlat s k v).inMem = s.inMem := rfl
@[simp] theorem writeFlat_activity (k : Nat) (v : Bit) (s : State) : (writeFlat s k v).activity = s.activity := rfl
@[simp] theorem writeFlat_script (k : Nat) (v : Bit) (s : State) : (writeFlat s k v).script = s.script := rfl
@[simp] theorem writeFlat_noted (k : Nat) (v : Bit) (s : State) : (writeFlat s k v).noted = s.noted := rfl
@[simp] theorem writeFlat_free (k : Nat) (v : Bit) (s : State) : (writeFlat s k v).free = s.free := rfl

/-! `storeInWord` -/

@[simp] theorem storeInWord_cfg (i : Nat) (v : Word) (s : State) : (storeInWord s i v).cfg = s.cfg := rfl
@[simp] theorem storeInWord_status (i : Nat) (v : Word) (s : State) : (storeInWord s i v).status = s.status := rfl
@[simp] theorem storeInWord_len (i : Nat) (v : Word) (s : State) : (storeInWord s i v).len = s.len := rfl
@[simp] theorem storeInWord_cap (i : Nat) (v : Word) (s : State) : (storeInWord s i v).cap = s.cap := rfl
@[simp] theorem storeInWord_flat (i : Nat) (v : Word) (s : State) : (storeInWord s i v).flat = s.flat := rfl
@[simp] theorem storeInWord_widx (i : Nat) (v : Word) (s : State) : (storeInWord s i v).widx = s.widx := rfl
@[simp] theorem storeInWord_bidx (i : Nat) (v : Word) (s : State) : (storeInWord s i v).bidx = s.bidx := rfl
@[simp] theorem storeInWord_pol (i : Nat) (v : Word) (s : State) : (storeInWord s i v).pol = s.pol := rfl
@[simp] theorem storeInWord_j (i : Nat) (v : Word) (s : State) : (storeInWord s i v).j = s.j := rfl
@[simp] theorem storeInWord_outMem (i : Nat) (v : Word) (s : State) : (storeInWord s i v).outMem = s.outMem := rfl
@[simp] theorem storeInWord_activity (i : Nat) (v : Word) (s : State) : (storeInWord s i v).activity = s.activity := rfl
@[simp] theorem storeInWord_script (i : Nat) (v : Word) (s : State) : (storeInWord s i v).script = s.script := rfl
@[simp] theorem storeInWord_noted (i : Nat) (v : Word) (s : State) : (storeInWord s i v).noted = s.noted := rfl
@[simp] theorem storeInWord_free (i : Nat) (v : Word) (s : State) : (storeInWord s i v).free = s.free := rfl

/-! `storeOutWord` -/

@[simp] theorem storeOutWord_cfg (i : Nat) (v : Word) (s : State) : (storeOutWord s i v).cfg = s.cfg := rfl
@[simp] theorem storeOutWord_status (i : Nat) (v : Word) (s : State) : (storeOutWord s i v).status = s.status := rfl
@[simp] theorem storeOutWord_len (i : Nat) (v : Word) (s : State) : (storeOutWord s i v).len = s.len := rfl
@[simp] theorem storeOutWord_cap (i : Nat) (v : Word) (s : State) : (storeOutWord s i v).cap = s.cap := rfl
@[simp] theorem storeOutWord_flat (i : Nat) (v : Word) (s : State) : (storeOutWord s i v).flat = s.flat := rfl
@[simp] theorem storeOutWord_widx (i : Nat) (v : Word) (s : State) : (storeOutWord s i v).widx = s.widx := rfl
@[simp] theorem storeOutWord_bidx (i : Nat) (v : Word) (s : State) : (storeOutWord s i v).bidx = s.bidx := rfl
@[simp] theorem storeOutWord_pol (i : Nat) (v : Word) (s : State) : (storeOutWord s i v).pol = s.pol := rfl
@[simp] theorem storeOutWord_j (i : Nat) (v : Word) (s : State) : (storeOutWord s i v).j = s.j := rfl
@[simp] theorem storeOutWord_inMem (i : Nat) (v : Word) (s : State) : (storeOutWord s i v).inMem = s.inMem := rfl
@[simp] theorem storeOutWord_activity (i : Nat) (v : Word) (s : State) : (storeOutWord s i v).activity = s.activity := rfl
@[simp] theorem storeOutWord_script (i : Nat) (v : Word) (s : State) : (storeOutWord s i v).script = s.script := rfl
@[simp] theorem storeOutWord_noted (i : Nat) (v : Word) (s : State) : (storeOutWord s i v).noted = s.noted := rfl
@[simp] theorem storeOutWord_free (i : Nat) (v : Word) (s : State) : (storeOutWord s i v).free = s.free := rfl

/-! `decodeStart` -/

@[simp] theorem decodeStart_cfg (s : State) : (decodeStart s).cfg = s.cfg := rfl
@[simp] theorem decodeStart_status (s : State) : (decodeStart s).status = s.status := rfl
@[simp] theorem decodeStart_len (s : State) : (decodeStart s).len = s.len := rfl
@[simp] theorem decodeStart_cap (s : State) : (decodeStart s).cap = s.cap := rfl
@[simp] theorem decodeStart_flat (s : State) : (decodeStart s).flat = s.flat := rfl
@[simp] theorem decodeStart_widx (s : State) : (decodeStart s).widx = s.widx := rfl
@[simp] theorem decodeStart_bidx (s : State) : (decodeStart s).bidx = s.bidx := rfl
@[simp] theorem decodeStart_pol (s : State) : (decodeStart s).pol = s.pol := rfl
@[simp] theorem decodeStart_inMem (s : State) : (decodeStart s).inMem = s.inMem := rfl
@[simp] theorem decodeStart_outMem (s : State) : (decodeStart s).outMem = s.outMem := rfl
@[simp] theorem decodeStart_activity (s : State) : (decodeStart s).activity = s.activity := rfl
@[simp] theorem decodeStart_script (s : State) : (decodeStart s).script = s.script := rfl
@[simp] theorem decodeStart_noted (s : State) : (decodeStart s).noted = s.noted := rfl
@[simp] theorem decodeStart_free (s : State) : (decodeStart s).free = s.free := rfl

/-! `encodeStart` -/

@[simp] theorem encodeStart_cfg (s : State) : (encodeStart s).cfg = s.cfg := rfl
@[simp] theorem encodeStart_status (s : State) : (encodeStart s).status = s.status := rfl
@[simp] theorem encodeStart_len (s : State) : (encodeStart s).len = s.len := rfl
@[simp] theorem encodeStart_cap (s : State) : (encodeStart s).cap = s.cap := rfl
@[simp] theorem encodeStart_flat (s : State) : (encodeStart s).flat = s.flat := rfl
@[simp] theorem encodeStart_widx (s : State) : (encodeStart s).widx = s.widx := rfl
@[simp] theorem encodeStart_bidx (s : State) : (encodeStart s).bidx = s.bidx := rfl
@[simp] theorem encodeStart_inMem (s : State) : (encodeStart s).inMem = s.inMem := rfl
@[simp] theorem encodeStart_outMem (s : State) : (encodeStart s).outMem = s.outMem := rfl
@[simp] theorem encodeStart_activity (s : State) : (encodeStart s).activity = s.activity := rfl
@[simp] theorem encodeStart_script (s : State) : (encodeStart s).script = s.script := rfl
@[simp] theorem encodeStart_noted (s : State) : (encodeStart s).noted = s.noted := rfl
@[simp] theorem encodeStart_free (s : State) : (encodeStart s).free = s.free := rfl

/-! `decodePosition` -/

@[simp] theorem decodePosition_cfg (s : State) : (decodePosition s).cfg = s.cfg := rfl
@[simp] theorem decodePosition_status (s : State) : (decodePosition s).status = s.status := rfl
@[simp] theorem decodePosition_len (s : State) : (decodePosition s).len = s.len := rfl
@[simp] theorem decodePosition_cap (s : State) : (decodePosition s).cap = s.cap := rfl
@[simp] theorem decodePosition_flat (s : State) : (decodePosition s).flat = s.flat := rfl
@[simp] theorem decodePosition_widx (s : State) : (decodePosition s).widx = s.widx := rfl
@[simp] theorem decodePosition_bidx (s : State) : (decodePosition s).bidx = s.bidx := rfl
@[simp] theorem decodePosition_pol (s : State) : (decodePosition s).pol = s.pol := rfl
@[simp] theorem decodePosition_inMem (s : State) : (decodePosition s).inMem = s.inMem := rfl
@[simp] theorem decodePosition_activity (s : State) : (decodePosition s).activity = s.activity := rfl
@[simp] theorem decodePosition_script (s : State) : (decodePosition s).script = s.script := rfl
@[simp] theorem decodePosition_noted (s : State) : (decodePosition s).noted = s.noted := rfl
@[simp] theorem decodePosition_free (s : State) : (decodePosition s).free = s.free := rfl

/-! `encodePosition` -/

@[simp] theorem encodePosition_cfg (s : State) : (encodePosition s).cfg = s.cfg := rfl
@[simp] theorem encodePosition_status (s : State) : (encodePosition s).status = s.status := rfl
@[simp] theorem encodePosition_len (s : State) : (encodePosition s).len = s.len := rfl
@[simp] theorem encodePosition_cap (s : State) : (encodePosition s).cap = s.cap := rfl
@[simp] theorem encodePosition_flat (s : State) : (encodePosition s).flat = s.flat := rfl
@[simp] theorem encodePosition_widx (s : State) : (encodePosition s).widx = s.widx := rfl
@[simp] theorem encodePosition_bidx (s : State) : (encodePosition s).bidx = s.bidx := rfl
@[simp] theorem encodePosition_inMem (s : State) : (encodePosition s).inMem = s.inMem := rfl
@[simp] theorem encodePosition_activity (s : State) : (encodePosition s).activity = s.activity := rfl
@[simp] theorem encodePosition_script (s : State) : (encodePosition s).script = s.script := rfl
@[simp] theorem encodePosition_noted (s : State) : (encodePosition s).noted = s.noted := rfl
@[simp] theorem encodePosition_free (s : State) : (encodePosition s).free = s.free := rfl

/-! `applyReset` -/

@[simp] theorem applyReset_cfg (s : State) : (applyReset s).cfg = s.cfg := rfl
@[simp] theorem applyReset_inMem (s : State) : (applyReset s).inMem = s.inMem := rfl
@[simp] theorem applyReset_script (s : State) : (applyReset s).script = s.script := rfl
@[simp] theorem applyReset_noted (s : State) : (applyReset s).noted = s.noted := rfl

end Sys2Proof.Machine
end

