-- ==== Sys2Proof/Laws/Memory.lean ====
section
/-! SUPPORT. What the memory operations do, read through one bit; and that each keeps the canonical form. -/

namespace Sys2Proof.Machine

theorem testBit_withBit (b n : Nat) (v : Bit) (m : Nat) :
    (withBit b n v).testBit m = if m = n then v else b.testBit m := by
  unfold withBit
  by_cases hm : m = n
  · subst hm
    cases h : b.testBit m <;> cases v <;> simp [h]
  · have : n ≠ m := fun h => hm h.symm
    split <;> simp [this]

theorem withBit_lt {W b n : Nat} (v : Bit) (hb : b < 2 ^ W) (hn : n < W) : withBit b n v < 2 ^ W := by
  unfold withBit
  split
  · exact hb
  · exact Nat.xor_lt_two_pow hb (Nat.pow_lt_pow_right (by omega) hn)

theorem partialBit_partialSetBit (w : PartialWord) (n : Nat) (v : Bit) (m : Nat) :
    partialBit (partialSetBit w n v) m = if m = n then some v else partialBit w m := by
  unfold partialBit partialSetBit
  simp only [testBit_withBit]
  split <;> simp

theorem partialBit_wholeWord (W : Nat) (v : Word) (n : Nat) :
    partialBit (wholeWord W v) n = if n < W then some (v.testBit n) else none := by
  unfold partialBit wholeWord
  simp [Nat.testBit_two_pow_sub_one]

theorem partialBit_blank (n : Nat) : partialBit .blank n = none := by
  simp [partialBit, PartialWord.blank]

theorem partialSetBit_wf {W n : Nat} {w : PartialWord} (v : Bit) (hn : n < W)
    (hw : w.known < 2 ^ W ∧ w.bits &&& w.known = w.bits) : partialWf W (partialSetBit w n v) := by
  refine ⟨fun h => ?_, withBit_lt true hw.1 hn, Nat.eq_of_testBit_eq fun m => ?_⟩
  · have := testBit_withBit w.known n true n
    rw [show withBit w.known n true = 0 from h] at this
    simp at this
  · have := congrArg (Nat.testBit · m) hw.2
    simp only [Nat.testBit_and, partialSetBit, testBit_withBit] at this ⊢
    split <;> simp_all

theorem wholeWord_wf {W : Nat} {v : Word} (hW : 1 ≤ W) (hv : v < 2 ^ W) : partialWf W (wholeWord W v) := by
  have h2 : 1 < 2 ^ W := Nat.one_lt_two_pow (by omega)
  refine ⟨?_, ?_, ?_⟩ <;> simp only [wholeWord]
  · omega
  · omega
  · rw [Nat.and_two_pow_sub_one_eq_mod, Nat.mod_eq_of_lt hv]

theorem find_modify (f : PartialWord → PartialWord) (m : Memory) (i i' : Nat) :
    (Memory.modify f m i).find i' = if i' = i then f (m.find i) else m.find i' := by
  induction m with
  | nil =>
    by_cases h : i' = i
    · simp [Memory.modify, Memory.find, h]
    · by_cases h' : i' < i <;> simp [Memory.modify, Memory.find, h, h']
  | cons p m ih =>
    obtain ⟨a, w⟩ := p
    simp only [Memory.modify]
    rcases Nat.lt_trichotomy i a with h | h | h
    · simp only [Memory.find, h, if_true]
      split_ifs <;> first | rfl | omega
    · subst h
      simp only [Nat.lt_irrefl, if_false, if_true, Memory.find]
      split_ifs <;> first | rfl | omega
    · have h1 : ¬ i < a := by omega
      have h2 : ¬ i = a := by omega
      simp only [h1, h2, if_false, Memory.find]
      split_ifs <;> first | rfl | omega | simp_all

/-- One bit read after one bit written. -/
theorem readBit_writeBit (sp : Space) (m : Memory) (i n : Nat) (v : Bit) (i' n' : Nat) :
    (m.writeBit i n v).readBit sp i' n' = if i' = i ∧ n' = n then v else m.readBit sp i' n' := by
  unfold Memory.readBit Memory.writeBit
  rw [find_modify]
  by_cases hi : i' = i
  · subst hi
    by_cases hn : n' = n <;> simp [partialBit_partialSetBit, hn]
  · simp [hi]

/-- One bit read after a whole word written. -/
theorem readBit_writeWord (sp : Space) (W : Nat) (m : Memory) (i : Nat) (v : Word) (i' n' : Nat) :
    (m.writeWord W i v).readBit sp i' n' =
      if i' = i then (if n' < W then v.testBit n' else unwritten sp i' n') else m.readBit sp i' n' := by
  unfold Memory.readBit Memory.writeWord
  rw [find_modify]
  by_cases hi : i' = i
  · subst hi
    by_cases hn : n' < W <;> simp [partialBit_wholeWord, hn]
  · simp [hi]

/-- One bit read after the words below `c` were all written. -/
theorem readBit_fill (sp : Space) (W : Nat) (f : Nat → Word) (c : Nat) (m : Memory) (i n : Nat) :
    (Memory.fill W f c m).readBit sp i n =
      if i < c then (if n < W then (f i).testBit n else unwritten sp i n) else m.readBit sp i n := by
  induction c with
  | zero => simp [Memory.fill]
  | succ c ih =>
    rw [Memory.fill, readBit_writeWord, ih]
    split_ifs <;> first | rfl | omega | simp_all

theorem testBit_wordOfBits (f : Nat → Bit) (W n : Nat) :
    (wordOfBits f W).testBit n = (decide (n < W) && f n) := by
  induction W with
  | zero => simp [wordOfBits]
  | succ W ih =>
    rw [wordOfBits, Nat.testBit_or, ih]
    rcases Nat.lt_trichotomy n W with h | h | h
    · have h1 : W ≠ n := by omega
      cases hf : f W <;> simp [h, Nat.lt_succ_of_lt h, h1]
    · subst h
      cases hf : f n <;> simp
    · have h1 : W ≠ n := by omega
      have h2 : ¬ n < W := by omega
      have h3 : ¬ n < W + 1 := by omega
      cases hf : f W <;> simp [h2, h3, h1]

theorem wordOfBits_lt (f : Nat → Bit) (W : Nat) : wordOfBits f W < 2 ^ W := by
  refine Nat.lt_pow_two_of_testBit _ fun n hn => ?_
  simp [testBit_wordOfBits, Nat.not_lt.mpr hn]

/-! ### The canonical form -/

theorem find_wf {W : Nat} {m : Memory} (hm : Memory.wf W m) (i : Nat) :
    (m.find i).known < 2 ^ W ∧ (m.find i).bits &&& (m.find i).known = (m.find i).bits := by
  induction m with
  | nil => simp [Memory.find, PartialWord.blank]
  | cons p m ih =>
    obtain ⟨a, w⟩ := p
    have hw := hm.2 (a, w) (by simp)
    have := ih ⟨(List.pairwise_cons.mp hm.1).2, fun q hq => hm.2 q (by simp [hq])⟩
    simp only [Memory.find]
    split_ifs
    · simp [PartialWord.blank]
    · exact hw.2
    · exact this

theorem mem_modify {f : PartialWord → PartialWord} {m : Memory} {i : Nat} {p : Nat × PartialWord}
    (hp : p ∈ Memory.modify f m i) : p = (i, f (m.find i)) ∨ p ∈ m := by
  induction m with
  | nil => simpa [Memory.modify, Memory.find] using hp
  | cons q m ih =>
    obtain ⟨a, w⟩ := q
    simp only [Memory.modify, Memory.find] at hp ⊢
    split_ifs at hp ⊢ with h1 h2
    · simpa using hp
    · subst h2
      rcases List.mem_cons.mp hp with h | h
      · exact .inl h
      · exact .inr (by simp [h])
    · rcases List.mem_cons.mp hp with h | h
      · exact .inr (by simp [h])
      · exact (ih h).imp id fun h => by simp [h]

theorem modify_wf {W : Nat} {f : PartialWord → PartialWord} {m : Memory} {i : Nat} (hm : Memory.wf W m)
    (hf : partialWf W (f (m.find i))) : Memory.wf W (Memory.modify f m i) := by
  constructor
  · clear hf
    induction m with
    | nil => simp [Memory.modify]
    | cons q m ih =>
      obtain ⟨a, w⟩ := q
      obtain ⟨hq, hm'⟩ := List.pairwise_cons.mp hm.1
      have ih := ih ⟨hm', fun q hq => hm.2 q (by simp [hq])⟩
      simp only [Memory.modify]
      split_ifs with h1 h2
      · refine List.pairwise_cons.mpr ⟨fun p hp => ?_, hm.1⟩
        rcases List.mem_cons.mp hp with h | h
        · simpa [h] using h1
        · exact Nat.lt_trans h1 (hq p h)
      · exact List.pairwise_cons.mpr ⟨hq, hm'⟩
      · refine List.pairwise_cons.mpr ⟨fun p hp => ?_, ih⟩
        rcases mem_modify hp with h | h
        · have : a < i := by omega
          simpa [h] using this
        · exact hq p h
  · intro p hp
    rcases mem_modify hp with h | h
    · simpa [h] using hf
    · exact hm.2 p h

theorem writeBit_wf {W n : Nat} {m : Memory} (hm : Memory.wf W m) (i : Nat) (hn : n < W) (v : Bit) :
    Memory.wf W (m.writeBit i n v) :=
  modify_wf hm (partialSetBit_wf v hn (find_wf hm i))

theorem writeWord_wf {W : Nat} {m : Memory} (hW : 1 ≤ W) (hm : Memory.wf W m) (i : Nat) {v : Word}
    (hv : v < 2 ^ W) : Memory.wf W (m.writeWord W i v) :=
  modify_wf hm (wholeWord_wf hW hv)

theorem fill_wf {W : Nat} {m : Memory} (hW : 1 ≤ W) (hm : Memory.wf W m) (f : Nat → Word)
    (hf : ∀ i, f i < 2 ^ W) (c : Nat) : Memory.wf W (Memory.fill W f c m) := by
  induction c with
  | zero => exact hm
  | succ c ih => exact writeWord_wf hW ih c (hf c)

theorem reset_memory_wf (sp : Space) : Memory.wf State.reset.cfg.W (State.reset.mem sp) := by
  cases sp <;> decide

end Sys2Proof.Machine
end

