-- ==== Sys2Proof/Laws/PerInstr.lean ====
section
/-! SUPPORT. What holds of every command as syntax, one lemma per constructor. -/

namespace Sys2Proof.Laws.Codes

/-- The command is well formed, and whatever stands above bit 1 of the value written, its code selects it
(30_encoding.md R83). -/
def Statement (i : Instr) : Prop :=
  i.wellFormed = true ∧ ∀ high : Nat, Sys2Proof.decode (4 * high + (Sys2Proof.encode i).toNat) = i

theorem decode_of_mod {v w : Nat} (h : v % 4 = w % 4) : Sys2Proof.decode v = Sys2Proof.decode w := by
  have : BitVec.ofNat 2 v = BitVec.ofNat 2 w := BitVec.eq_of_toNat_eq (by simpa using h)
  simp [Sys2Proof.decode, this]

theorem decode : Statement .decode :=
  ⟨rfl, fun high => decode_of_mod (w := 0) (by simp [Sys2Proof.encode]; try omega)⟩

theorem encode : Statement .encode :=
  ⟨rfl, fun high => decode_of_mod (w := 1) (by simp [Sys2Proof.encode]; try omega)⟩

theorem f2wb : Statement .f2wb :=
  ⟨rfl, fun high => decode_of_mod (w := 2) (by simp [Sys2Proof.encode]; try omega)⟩

theorem wb2f : Statement .wb2f :=
  ⟨rfl, fun high => decode_of_mod (w := 3) (by simp [Sys2Proof.encode]; try omega)⟩

end Sys2Proof.Laws.Codes
end

