-- ==== Sys2Proof/Laws/Streams.lean ====
section
/-! SUPPORT. Bits by flat position, and what the loops of DECODE and ENCODE leave: one lemma per loop, read
through one bit of OUT. -/

namespace Sys2Proof.Machine

theorem f2wb_bit_lt {W : Nat} (hW : 1 ≤ W) (k : Nat) : (f2wb W k).2 < W := by
  simp only [f2wb]; omega

/-- A word and a bit of it are the place of exactly one flat position. -/
theorem f2wb_eq_iff {W n : Nat} (hn : n < W) (k w : Nat) : f2wb W k = (w, n) ↔ k = wb2f W w n := by
  have hW : 0 < W := by omega
  simp only [f2wb, wb2f, Prod.mk.injEq]
  have hr := Nat.mod_lt k hW
  have hk := Nat.div_add_mod k W
  constructor
  · rintro ⟨rfl, rfl⟩
    rw [Nat.mul_comm W] at hk
    omega
  · rintro rfl
    have h1 : W - 1 - n < W := by omega
    rw [Nat.add_comm, Nat.add_mul_div_right _ _ hW, Nat.add_mul_mod_self_right,
      Nat.div_eq_of_lt h1, Nat.mod_eq_of_lt h1]
    omega

theorem f2wb_inj {W : Nat} (hW : 1 ≤ W) {k k' : Nat} (h : f2wb W k = f2wb W k') : k = k' := by
  have hn := f2wb_bit_lt hW k'
  have h1 : f2wb W k = ((f2wb W k').1, (f2wb W k').2) := h
  have h2 : f2wb W k' = ((f2wb W k').1, (f2wb W k').2) := rfl
  rw [f2wb_eq_iff hn] at h1 h2
  omega

theorem memReadBit_memWriteBit (s : State) (i n : Nat) (v : Bit) (i' n' : Nat) :
    memReadBit (memWriteBit s i n v) .output i' n' =
      if i' = i ∧ n' = n then v else memReadBit s .output i' n' :=
  readBit_writeBit .output s.outMem i n v i' n'

theorem memReadBit_writeFlat (s : State) (k : Nat) (v : Bit) (i n : Nat) :
    memReadBit (writeFlat s k v) .output i n =
      if f2wb s.cfg.W k = (i, n) then v else memReadBit s .output i n := by
  rw [writeFlat, memReadBit_memWriteBit]
  by_cases h : f2wb s.cfg.W k = (i, n)
  · simp [h]
  · have : ¬ (i = (f2wb s.cfg.W k).1 ∧ n = (f2wb s.cfg.W k).2) := fun ⟨h1, h2⟩ => h (Prod.ext h1.symm h2.symm)
    simp [h, this]

/-- `IN` read after any update that leaves `IN` and the parameters alone. -/
theorem memReadBit_input_congr {s t : State} (hm : t.inMem = s.inMem) (i n : Nat) :
    memReadBit t .input i n = memReadBit s .input i n := by
  simp [memReadBit, State.mem, hm]

theorem memReadBit_output_congr {s t : State} (hm : t.outMem = s.outMem) (i n : Nat) :
    memReadBit t .output i n = memReadBit s .output i n := by
  simp [memReadBit, State.mem, hm]

theorem readFlat_input_congr {s t : State} (hc : t.cfg = s.cfg) (hm : t.inMem = s.inMem) (k : Nat) :
    readFlat t .input k = readFlat s .input k := by
  simp only [readFlat, hc]
  exact memReadBit_input_congr hm _ _

theorem readFlat_output_congr {s t : State} (hc : t.cfg = s.cfg) (hm : t.outMem = s.outMem) (k : Nat) :
    readFlat t .output k = readFlat s .output k := by
  simp only [readFlat, hc]
  exact memReadBit_output_congr hm _ _

theorem testBit_memRead (s : State) (sp : Space) (i n : Nat) :
    (memRead s sp i).testBit n = (decide (n < s.cfg.W) && memReadBit s sp i n) :=
  testBit_wordOfBits _ _ _

/-- The registers and memories that one pass of the decoder's loop leaves alone. -/
theorem decodeLoop_frame (n : Nat) (s : State) :
    let t := decodePosition^[n] s
    SameRegs s t ∧ SameHostSide s t ∧ t.status = s.status ∧ t.pol = s.pol ∧ t.inMem = s.inMem
      ∧ t.activity = s.activity ∧ t.j = s.j + n := by
  induction n with
  | zero => simp [SameRegs, SameHostSide]
  | succ n ih =>
    rw [Function.iterate_succ_apply']
    simp only [SameRegs, SameHostSide] at ih ⊢
    simp only [decodePosition_cfg, decodePosition_len, decodePosition_cap, decodePosition_flat,
      decodePosition_widx, decodePosition_bidx, decodePosition_script, decodePosition_noted,
      decodePosition_free, decodePosition_status, decodePosition_pol, decodePosition_inMem,
      decodePosition_activity, decodePosition_j]
    refine ⟨ih.1, ih.2.1, ih.2.2.1, ih.2.2.2.1, ih.2.2.2.2.1, ih.2.2.2.2.2.1, ?_⟩
    rw [ih.2.2.2.2.2.2]; omega

/-- What the decoder's loop leaves at one bit of `OUT`: the data bit of pair `j` where position `j` was passed,
the old bit elsewhere. -/
theorem decodeLoop_bit (n : Nat) (s : State) (i b : Nat) :
    memReadBit (decodePosition^[n] s) .output i b =
      if b < s.cfg.W ∧ s.j ≤ wb2f s.cfg.W i b ∧ wb2f s.cfg.W i b < s.j + n then
        pairBit (readFlat s .input (2 * wb2f s.cfg.W i b)) (readFlat s .input (2 * wb2f s.cfg.W i b + 1))
      else memReadBit s .output i b := by
  induction n with
  | zero => exact (if_neg (by omega)).symm
  | succ n ih =>
    rw [Function.iterate_succ_apply']
    obtain ⟨⟨hc, -⟩, -, -, -, hin, -, hj⟩ := decodeLoop_frame n s
    generalize decodePosition^[n] s = t at *
    have h1 : memReadBit (decodePosition t) .output i b =
        memReadBit (writeFlat t t.j (pairBit (readFlat t .input (2 * t.j)) (readFlat t .input (2 * t.j + 1))))
          .output i b := rfl
    rw [h1, memReadBit_writeFlat, ih, hc, hj, readFlat_input_congr hc hin, readFlat_input_congr hc hin]
    by_cases hb : b < s.cfg.W
    · simp only [f2wb_eq_iff hb]
      by_cases hk : s.j + n = wb2f s.cfg.W i b
      · rw [if_pos hk, if_pos (by omega), hk]
      · rw [if_neg hk]
        split_ifs <;> first | rfl | omega
    · have : f2wb s.cfg.W (s.j + n) ≠ (i, b) := fun h =>
        hb (by have := f2wb_bit_lt s.cfg.one_le_W (s.j + n); rw [h] at this; exact this)
      simp [hb, this]

theorem encodeLoop_frame (n : Nat) (s : State) :
    let t := encodePosition^[n] s
    SameRegs s t ∧ SameHostSide s t ∧ t.status = s.status ∧ t.inMem = s.inMem
      ∧ t.activity = s.activity ∧ t.j = s.j + n
      ∧ t.pol = (s.pol ^^ prefixParity (fun j => readFlat s .input (s.j + j)) n) := by
  induction n with
  | zero => simp [SameRegs, SameHostSide, prefixParity]
  | succ n ih =>
    rw [Function.iterate_succ_apply']
    simp only [SameRegs, SameHostSide] at ih ⊢
    obtain ⟨hr, hh, hs, hin, ha, hj, hp⟩ := ih
    simp only [encodePosition_cfg, encodePosition_len, encodePosition_cap, encodePosition_flat,
      encodePosition_widx, encodePosition_bidx, encodePosition_script, encodePosition_noted,
      encodePosition_free, encodePosition_status, encodePosition_inMem,
      encodePosition_activity, encodePosition_j, encodePosition_pol]
    refine ⟨hr, hh, hs, hin, ha, by rw [hj]; omega, ?_⟩
    rw [hp, readFlat_input_congr hr.1 hin, hj, prefixParity, Bool.xor_assoc]

/-- What the encoder's loop leaves at one bit of `OUT`: the running polarity after half the position's symbols
where the position was passed (42_encoder.md R134), the old bit elsewhere. -/
theorem encodeLoop_bit (n : Nat) (s : State) (i b : Nat) :
    memReadBit (encodePosition^[n] s) .output i b =
      if b < s.cfg.W ∧ 2 * s.j ≤ wb2f s.cfg.W i b ∧ wb2f s.cfg.W i b < 2 * (s.j + n) then
        s.pol ^^ prefixParity (fun j => readFlat s .input (s.j + j)) ((wb2f s.cfg.W i b + 1) / 2 - s.j)
      else memReadBit s .output i b := by
  induction n with
  | zero => exact (if_neg (by omega)).symm
  | succ n ih =>
    rw [Function.iterate_succ_apply']
    obtain ⟨⟨hc, -⟩, -, -, hin, -, hj, hp⟩ := encodeLoop_frame n s
    generalize encodePosition^[n] s = t at *
    have h1 : memReadBit (encodePosition t) .output i b =
        memReadBit (writeFlat (writeFlat t (2 * t.j) t.pol) (2 * t.j + 1) (t.pol ^^ readFlat t .input t.j))
          .output i b := rfl
    rw [h1]
    simp only [memReadBit_writeFlat, ih, writeFlat_cfg, hc, hj, hp, readFlat_input_congr hc hin]
    by_cases hb : b < s.cfg.W
    · simp only [f2wb_eq_iff hb]
      by_cases hk1 : 2 * (s.j + n) + 1 = wb2f s.cfg.W i b
      · rw [if_pos hk1, if_pos (by omega), ← hk1,
          show (2 * (s.j + n) + 1 + 1) / 2 - s.j = n + 1 by omega, prefixParity, Bool.xor_assoc]
      · rw [if_neg hk1]
        by_cases hk0 : 2 * (s.j + n) = wb2f s.cfg.W i b
        · rw [if_pos hk0, if_pos (by omega), ← hk0, show (2 * (s.j + n) + 1) / 2 - s.j = n by omega]
        · rw [if_neg hk0]
          split_ifs <;> first | rfl | omega
    · have hne : ∀ k, f2wb s.cfg.W k ≠ (i, b) := fun k h =>
        hb (by have := f2wb_bit_lt s.cfg.one_le_W k; rw [h] at this; exact this)
      simp [hb, hne]

/-! ### What a command leaves, and the checks before it -/

theorem decodeError_none_iff (s : State) :
    decodeError s = none ↔ inputBits s % 2 = 0 ∧ decodeNeed s ≤ s.cap := by
  unfold decodeError
  split_ifs <;> simp <;> omega

theorem encodeError_none_iff (s : State) : encodeError s = none ↔ encodeNeed s ≤ s.cap := by
  unfold encodeError
  split_ifs <;> simp <;> omega

theorem wb2fError_none_iff (s : State) :
    wb2fError s = none ↔
      s.bidx.toNat < s.cfg.W ∧ wb2f s.cfg.W s.widx s.bidx.toNat < 2 ^ s.cfg.FW := by
  unfold wb2fError
  split_ifs <;> simp <;> omega

theorem runDecode_of_error {s : State} {e : ErrCode} (h : decodeError s = some e) :
    runDecode s = finish e s := by simp [runDecode, h]

theorem runDecode_of_none {s : State} (h : decodeError s = none) :
    runDecode s = finish .ok (decodePosition^[decodeBits s] (decodeStart s)) := by simp [runDecode, h]

theorem runEncode_of_error {s : State} {e : ErrCode} (h : encodeError s = some e) :
    runEncode s = finish e s := by simp [runEncode, h]

theorem runEncode_of_none {s : State} (h : encodeError s = none) :
    runEncode s = finish .ok (encodePosition^[inputBits s] (encodeStart s)) := by simp [runEncode, h]

theorem runWb2f_of_error {s : State} {e : ErrCode} (h : wb2fError s = some e) :
    runWb2f s = finish e s := by simp [runWb2f, h]

theorem runWb2f_of_none {s : State} (h : wb2fError s = none) :
    runWb2f s = finish .ok { s with flat := wb2f s.cfg.W s.widx s.bidx.toNat } := by simp [runWb2f, h]

/-- `exec` always answers a next state: its meaning's. -/
theorem exec_eq (i : Instr) (s : State) :
    exec i s = .next (match i with
      | .decode => runDecode s
      | .encode => runEncode s
      | .f2wb => runF2wb s
      | .wb2f => runWb2f s) := by
  cases i <;> rfl

end Sys2Proof.Machine
end

