-- ==== Sys2Proof/Laws/Step.lean ====
section
/-! SUPPORT. Inversion: once, all that an internal step and a step of the machine can do, guards included; later
proofs split on these cases and do not unfold the step. -/

namespace Sys2Proof.Machine

/-- The state a command's meaning answers. -/
def runCommand (i : Instr) (s : State) : State :=
  match i with
  | .decode => runDecode s
  | .encode => runEncode s
  | .f2wb => runF2wb s
  | .wb2f => runWb2f s

theorem exec_eq_runCommand (i : Instr) (s : State) : exec i s = .next (runCommand i s) := by
  cases i <;> rfl

/-- Everything one internal step can do. -/
theorem tick_cases (s : State) :
    (s.activity = .idle ∧ tick s = s)
    ∨ (∃ e, s.activity ≠ .idle ∧ tick s = finish e s)
    ∨ (s.activity = .accepted .decode ∧ decodeError s = none
        ∧ tick s = { decodeStart s with activity := .decoding })
    ∨ (s.activity = .accepted .encode ∧ encodeError s = none
        ∧ tick s = { encodeStart s with activity := .encoding })
    ∨ (∃ i, s.activity = .accepted i ∧ (i = .f2wb ∨ i = .wb2f) ∧ tick s = runCommand i s)
    ∨ (s.activity = .decoding ∧ s.j < decodeBits s ∧ tick s = decodePosition s)
    ∨ (s.activity = .encoding ∧ s.j < inputBits s ∧ tick s = encodePosition s) := by
  cases ha : s.activity with
  | idle => exact .inl ⟨rfl, by simp [tick, ha]⟩
  | accepted op =>
    right
    cases op with
    | decode =>
      cases h : decodeError s with
      | some e => exact .inl ⟨e, by simp, by simp [tick, ha, h]⟩
      | none => exact .inr (.inl ⟨rfl, rfl, by simp [tick, ha, h]⟩)
    | encode =>
      cases h : encodeError s with
      | some e => exact .inl ⟨e, by simp, by simp [tick, ha, h]⟩
      | none => exact .inr (.inr (.inl ⟨rfl, rfl, by simp [tick, ha, h]⟩))
    | f2wb => exact .inr (.inr (.inr (.inl ⟨.f2wb, rfl, .inl rfl, by simp [tick, ha, runCommand]⟩)))
    | wb2f => exact .inr (.inr (.inr (.inl ⟨.wb2f, rfl, .inr rfl, by simp [tick, ha, runCommand]⟩)))
  | decoding =>
    right
    by_cases h : s.j < decodeBits s
    · exact .inr (.inr (.inr (.inr (.inl ⟨rfl, h, by simp [tick, ha, h]⟩))))
    · exact .inl ⟨.ok, by simp, by simp [tick, ha, h]⟩
  | encoding =>
    right
    by_cases h : s.j < inputBits s
    · exact .inr (.inr (.inr (.inr (.inr ⟨rfl, h, by simp [tick, ha, h]⟩))))
    · exact .inl ⟨.ok, by simp, by simp [tick, ha, h]⟩

/-- Everything a host line can do when it answers a next state. -/
theorem hostStep_cases {a : HostAction} {u t : State} (h : hostStep a u = .next t) :
    (∃ r v, a = .write r v ∧ u.busy = true ∧ t = u)
    ∨ (∃ v, a = .write 0 v ∧ u.busy = false ∧ t = runCommand (decode v) u)
    ∨ (∃ r v, a = .write r v ∧ r ≠ 0 ∧ u.busy = false ∧ t = regWrite u (regOfNumber r) v)
    ∨ (∃ r, a = .read r ∧ t = note (hostRead u r) u)
    ∨ (∃ i v, a = .storeIn i v ∧ u.busy = false ∧ v < 2 ^ u.cfg.W ∧ t = storeInWord u i v)
    ∨ (∃ i v, a = .storeOut i v ∧ u.busy = false ∧ v < 2 ^ u.cfg.W ∧ t = storeOutWord u i v)
    ∨ (∃ i, a = .loadOut i ∧ u.busy = false ∧ t = note (memRead u .output i) u)
    ∨ (a = .wait ∧ u.busy = true ∧ t = { tick u with script := .wait :: u.script })
    ∨ (a = .wait ∧ u.busy = false ∧ t = note (regRead u .status) u)
    ∨ (a = .reset ∧ t = applyReset u)
    ∨ (∃ v, a = .start v ∧ u.busy = true ∧ t = u)
    ∨ (∃ v, a = .start v ∧ u.busy = false ∧ t = accept (decode v) u)
    ∨ (a = .tick ∧ t = tick u) := by
  cases hb : u.busy <;> cases a <;>
    simp [hostStep, hostWrite, withBuffers, withWord, hb] at h ⊢
  case false.write r v =>
    fin_cases r <;> simp [regOfNumber, exec_eq_runCommand] at h ⊢ <;> exact h.symm
  case false.storeIn i v =>
    split_ifs at h with hv
    cases h
    exact ⟨hv, rfl⟩
  case false.storeOut i v =>
    split_ifs at h with hv
    cases h
    exact ⟨hv, rfl⟩
  all_goals exact h.symm

/-- Everything a step can do when it answers a next state. -/
theorem step_cases {s t : State} (h : step s = .next t) :
    (s.script = [] ∧ t = tick s)
    ∨ ∃ a rest, s.script = a :: rest ∧ hostStep a { s with script := rest } = .next t := by
  unfold step at h
  split at h
  case h_1 hs =>
    cases h
    exact .inl ⟨hs, rfl⟩
  case h_2 a rest hs => exact .inr ⟨a, rest, hs, h⟩

/-- A stored register keeps everything but that register. -/
theorem regWrite_frame (s : State) (r : Reg) (v : Nat) :
    let t := regWrite s r v
    t.cfg = s.cfg ∧ t.status = s.status ∧ t.pol = s.pol ∧ t.j = s.j ∧ t.inMem = s.inMem
      ∧ t.outMem = s.outMem ∧ t.activity = s.activity ∧ SameHostSide s t := by
  cases r <;> exact ⟨rfl, rfl, rfl, rfl, rfl, rfl, rfl, rfl, rfl, rfl⟩

end Sys2Proof.Machine
end

