-- ==== Sys2Proof/Tests/Slice0.lean ====
section
/-! SUPPORT. Tests, their expected results taken from the spec (the vector or rule is named), and for every statement
with hypotheses a witness that meets them, at the edges of its clauses. -/

namespace Sys2Proof.Tests

open Sys2Proof.Machine

/-! ### Small states -/

/-- An instance with the given width and polarity. -/
def config (W : Nat) (P0 : Bit) (h0 : 1 ≤ W := by decide) (h1 : W ≤ 256 := by decide) : Config :=
  { W := W, IW := 8, P0 := P0, one_le_W := h0, W_le_max := h1, one_le_IW := by decide }

/-- A buffer holding the given words from index 0 on. -/
def buffer (c : Config) (ws : List Word) : Memory :=
  ws.zipIdx.foldl (fun m p => m.writeWord c.W p.2 p.1) []

/-- An idle block with the given buffers, `LEN` and `CAP`. -/
def block (c : Config) (inp out : List Word) (len cap : Nat) : State :=
  { State.afterReset c false 0 (buffer c inp) (buffer c out) with len := len, cap := cap }

/-- `STATUS` and the first `n` words of `OUT` after a command. -/
def outcome (i : Instr) (s : State) (n : Nat) : Option (BitVec 3 × List Word) :=
  match exec i s with
  | .next t    => some (t.status, (List.range n).map (memRead t .output))
  | .fault _   => none
  | .refused _ => none

/-- The registers of the bit-index unit, with `STATUS`, after a command. -/
def indices (i : Instr) (s : State) : Option (BitVec 3 × Nat × Nat × Nat) :=
  match exec i s with
  | .next t    => some (t.status, t.flat, t.widx, t.bidx.toNat)
  | .fault _   => none
  | .refused _ => none

/-! ### Well-formedness: one ill-formed term for each check -/

theorem test_width_zero_refused : Config.elaborate 0 8 true = .error .widthZero := by decide
theorem test_width_257_refused : Config.elaborate 257 8 true = .error .widthTooLarge := by decide
theorem test_index_width_zero_refused : Config.elaborate 8 0 true = .error .indexWidthZero := by decide
theorem test_store_of_no_word_refused :
    HostAction.wellFormed Config.reference (.storeIn 0 256) = false
      ∧ HostAction.wellFormed Config.reference (.storeOut 0 256) = false := by decide

/-! ### Decoding: the codes of 30_encoding.md R80, written out bit by bit -/

theorem test_decode_word_decode : decodeTableWord 8 0b00000000 = some .decode := by decide
theorem test_decode_word_encode : decodeTableWord 8 0b00000001 = some .encode := by decide
theorem test_decode_word_f2wb : decodeTableWord 8 0b00000010 = some .f2wb := by decide
theorem test_decode_word_wb2f : decodeTableWord 8 0b00000011 = some .wb2f := by decide
/-- DV-H8. -/
theorem test_decode_ignores_upper_bits : decode 0b100 = .decode := by decide

/-! ### The commands -/

/-- DV-D8: three words, a partial last word over `0x3C`. -/
theorem test_decode_partial_word :
    outcome .decode (block (config 8 true) [0x99, 0xFF, 0x5A] [0x00, 0x3C] 3 2) 2
      = some (0b000, [0xF0, 0xFC]) := by decide +kernel
/-- DV-D17: `W = 3`, two straddling pairs, `OUT` unwritten before. -/
theorem test_decode_straddle :
    outcome .decode (block (config 3 true) [0b101, 0b100, 0b010, 0b111] [] 4 2) 2
      = some (0b000, [0b100, 0b110]) := by decide +kernel
/-- DV-E7, `P0 = 1`: the polarity is carried across a word boundary. -/
theorem test_encode_carries_polarity :
    outcome .encode (block (config 8 true) [0x01, 0x80] [] 2 4) 4
      = some (0b000, [0xFF, 0xFE, 0x7F, 0xFF]) := by decide +kernel
/-- DV-E14, `P0 = 0`: odd width. -/
theorem test_encode_odd_width :
    outcome .encode (block (config 3 false) [0b101, 0b110] [] 2 4) 4
      = some (0b000, [0b011, 0b110, 0b011, 0b000]) := by decide +kernel
/-- DV-B8. -/
theorem test_f2wb_straddle :
    indices .f2wb { block (config 3 true) [] [] 0 0 with flat := 3 } = some (0b000, 3, 1, 2) := by decide
/-- DV-B11: the largest bit index there is. -/
theorem test_f2wb_width_256 :
    indices .f2wb { block (config 256 true) [] [] 0 0 with flat := 256 } = some (0b000, 256, 1, 255) := by decide
/-- DV-B17: the largest result. -/
theorem test_wb2f_largest :
    indices .wb2f { block (config 8 true) [] [] 0 0 with widx := 16383 } = some (0b000, 131071, 16383, 0) := by
  decide
/-- DV-B18: one more does not fit, and `FLAT` is unchanged. -/
theorem test_wb2f_does_not_fit :
    indices .wb2f { block (config 8 true) [] [] 0 0 with flat := 99, widx := 16384, bidx := 7 }
      = some (0b110, 99, 16384, 7) := by decide

/-! ### The host lines -/

/-- What one step answers, read through `f`. -/
def after {α : Type} (s : State) (f : State → α) : Option α :=
  match step s with
  | .next t    => some (f t)
  | .fault _   => none
  | .refused _ => none

/-- DV-H6: `CAP` has 9 bits. -/
theorem test_write_cap_truncates :
    after { block (config 8 true) [] [] 0 0 with script := [.write 3 0x3FE] } State.cap = some 0x1FE := by decide
/-- DV-H12: writes while busy are ignored. -/
theorem test_write_while_busy_ignored :
    after { accept .decode (block (config 8 true) [] [] 3 0) with script := [.write 2 9] } State.len = some 3 := by
  decide
/-- DV-H14: the old `ERR` above `BUSY = 1`. -/
theorem test_read_status_while_busy :
    after { accept .decode { block (config 8 true) [] [] 3 0 with status := 0b100 } with script := [.read 1] }
      State.noted = some [0b101] := by decide
/-- The word of table row `F2WB` is the first command to run after reset; DV-H3. -/
theorem test_first_command_after_reset :
    after (State.reset.withFetchWord 8 0b10) (fun t => (t.status, t.widx, t.bidx)) = some (0b000, 0, 7) := by decide

/-! ### Witnesses: the hypotheses of each statement are met -/

/-- A busy block: a `DECODE` of DV-D1 accepted and not begun. -/
def busyBlock : State := accept .decode (block (config 8 true) [0x99, 0xFF] [0x00] 2 1)
/-- The same command past its checks, at its last position. -/
def decodingBlock : State := { busyBlock with activity := .decoding, j := 8 }
/-- An `ENCODE` of DV-E1 past its check, at its first position. -/
def encodingBlock : State :=
  { accept .encode (block (config 8 true) [0xF0] [] 1 2) with activity := .encoding, pol := true }
/-- The idle block of DV-D1. -/
def idleBlock : State := block (config 8 true) [0x99, 0xFF] [0x00] 2 1

theorem witness_reset_legal : Legal State.reset := by constructor <;> decide
theorem witness_idle_legal : Legal idleBlock := by constructor <;> decide
theorem witness_busy_legal : Legal busyBlock := by constructor <;> decide
theorem witness_decoding_legal : Legal decodingBlock := by constructor <;> decide
theorem witness_encoding_legal : Legal encodingBlock := by constructor <;> decide

/-- StepRunsTheSelectedCommand: a write to `CMD` and a `start` on an idle block, a `tick` on a busy one, an empty
script, a table word. -/
theorem witness_StepRunsTheSelectedCommand :
    (let s := { idleBlock with script := [.write 0 2] };
      s.script = .write 0 2 :: [] ∧ s.busy = false)
    ∧ (let s := { idleBlock with script := [.start 2] }; s.script = .start 2 :: [] ∧ s.busy = false)
    ∧ { decodingBlock with script := [.tick] }.script = .tick :: []
    ∧ State.reset.script = [] ∧ 0b11 < 2 ^ 8 := by decide
/-- CmdRegisterStartsCommands: idle, busy, and a read. -/
theorem witness_CmdRegisterStartsCommands :
    (let s := { idleBlock with script := [.write 0 7] }; s.script = .write 0 7 :: [] ∧ s.busy = false)
    ∧ (let s := { busyBlock with script := [.write 0 7] }; s.script = .write 0 7 :: [] ∧ s.busy = true)
    ∧ { idleBlock with script := [.read 0] }.script = .read 0 :: [] := by decide
/-- StatusRegisterIsReadOnly. -/
theorem witness_StatusRegisterIsReadOnly :
    { busyBlock with script := [.write 1 0] }.script = .write 1 0 :: []
    ∧ { busyBlock with script := [.read 1] }.script = .read 1 :: [] := by decide
/-- ReservedRegisterIsInert. -/
theorem witness_ReservedRegisterIsInert :
    { idleBlock with script := [.write 7 1] }.script = .write 7 1 :: []
    ∧ { idleBlock with script := [.read 7] }.script = .read 7 :: [] := by decide
/-- HostReadAndWriteFollowTheTable: every register number, idle and busy. -/
theorem witness_HostReadAndWriteFollowTheTable : ∀ r : Fin 8,
    (let s := { idleBlock with script := [.write r 511] }; s.script = .write r 511 :: [] ∧ s.busy = false)
    ∧ (let s := { busyBlock with script := [.write r 511] }; s.script = .write r 511 :: [] ∧ s.busy = true)
    ∧ { busyBlock with script := [.read r] }.script = .read r :: [] := by decide
/-- WritesWhileBusyAreIgnored: each of its three lines. -/
theorem witness_WritesWhileBusyAreIgnored :
    busyBlock.busy = true ∧ { busyBlock with script := [.write 0 1] }.script = .write 0 1 :: []
    ∧ { busyBlock with script := [.start 1] }.script = .start 1 :: []
    ∧ { busyBlock with script := [.read 5] }.script = .read 5 :: [] := by decide
/-- BufferAccessWhileBusyIsARace: each of the three lines. -/
theorem witness_BufferAccessWhileBusyIsARace :
    busyBlock.busy = true ∧ (HostAction.storeIn 0 1).touchesBuffer = true
    ∧ (HostAction.storeOut 0 1).touchesBuffer = true ∧ (HostAction.loadOut 0).touchesBuffer = true
    ∧ step { busyBlock with script := [.loadOut 0] } = .fault .bufferRace := by
  refine ⟨by decide, rfl, rfl, rfl, rfl⟩
/-- ResetStateIsLegal: the bounds of its second clause, at the largest `J`. -/
theorem witness_ResetStateIsLegal :
    (2 ^ Config.reference.FW - 1 < 2 ^ Config.reference.FW) ∧ Memory.wf Config.reference.W idleBlock.inMem
    ∧ Memory.wf Config.reference.W idleBlock.outMem := by decide
/-- ResetInputClearsTheRegisters, CommandsStraightAfterReset. -/
theorem witness_ResetInputClearsTheRegisters :
    { idleBlock with script := [.reset] }.script = .reset :: []
    ∧ { idleBlock with script := [.reset] }.busy = false := by decide
/-- ResetAbandonsARunningCommand: and a word at the boundary `i = CAP`. -/
theorem witness_ResetAbandonsARunningCommand :
    { decodingBlock with script := [.reset] }.script = .reset :: []
    ∧ { decodingBlock with script := [.reset] }.busy = true ∧ decodingBlock.cap ≤ 1 := by decide
/-- WritingOneBitChangesOneBit: the last bit of the last word. -/
theorem witness_WritingOneBitChangesOneBit : 0 < idleBlock.cap ∧ 7 < idleBlock.cfg.W ∧ (0, 6) ≠ (0, 7) := by decide
/-- StoredWordsReadBack: the largest word, each of the three lines. -/
theorem witness_StoredWordsReadBack :
    idleBlock.busy = false ∧ 255 < 2 ^ idleBlock.cfg.W
    ∧ { idleBlock with script := [.storeIn 3 255] }.script = .storeIn 3 255 :: []
    ∧ { idleBlock with script := [.storeOut 3 255] }.script = .storeOut 3 255 :: []
    ∧ { idleBlock with script := [.loadOut 3] }.script = .loadOut 3 :: [] := by decide
/-- BitIndexMapsAreInverse: the smallest width, and both order clauses at `W = 3`. -/
theorem witness_BitIndexMapsAreInverse :
    1 ≤ 1 ∧ (2 < 3 ∧ 0 < 2 ∧ (f2wb 3 0).1 = (f2wb 3 2).1) ∧ (0 < 3 ∧ 2 < 3 ∧ 0 < 1) := by decide
/-- PairStraddlesOnlyForOddWidth: pair 1 of `W = 3` straddles (43_bit_index_unit.md R160), pair 0 does not. -/
theorem witness_PairStraddlesOnlyForOddWidth :
    (f2wb 3 2).1 ≠ (f2wb 3 3).1 ∧ (f2wb 3 0).1 = (f2wb 3 1).1 ∧ (f2wb 1 0).1 ≠ (f2wb 1 1).1 := by decide
/-- F2wbWritesWordAndBitIndex: the largest `FLAT`. -/
theorem witness_F2wbWritesWordAndBitIndex :
    { idleBlock with flat := 131071 }.flat < 2 ^ idleBlock.cfg.FW := by decide
/-- Wb2fWritesFlatPositionOrRaises: DV-B17 for the first clause, DV-B20's edge and DV-B18 for the second. -/
theorem witness_Wb2fWritesFlatPositionOrRaises :
    (let s := { idleBlock with widx := 16383, bidx := 0 };
      s.bidx.toNat < s.cfg.W ∧ s.widx * s.cfg.W + (s.cfg.W - 1 - s.bidx.toNat) < 2 ^ s.cfg.FW)
    ∧ (let s := { idleBlock with bidx := 8 }; s.cfg.W ≤ s.bidx.toNat)
    ∧ (let s := { idleBlock with widx := 16384, bidx := 7 };
      2 ^ s.cfg.FW ≤ s.widx * s.cfg.W + (s.cfg.W - 1 - s.bidx.toNat)) := by decide
/-- BitIndexRegistersRoundTrip: both orders. -/
theorem witness_BitIndexRegistersRoundTrip :
    (∃ t u, ({ idleBlock with flat := 131071 } : State).flat < 2 ^ idleBlock.cfg.FW
      ∧ exec .f2wb { idleBlock with flat := 131071 } = .next t ∧ exec .wb2f t = .next u)
    ∧ ∃ t u, ({ idleBlock with widx := 16383 } : State).bidx.toNat < idleBlock.cfg.W
      ∧ 16383 * idleBlock.cfg.W + (idleBlock.cfg.W - 1 - idleBlock.bidx.toNat) < 2 ^ idleBlock.cfg.FW
      ∧ exec .wb2f { idleBlock with widx := 16383 } = .next t ∧ exec .f2wb t = .next u :=
  ⟨⟨_, _, by decide, rfl, rfl⟩, ⟨_, _, by decide, by decide, rfl, rfl⟩⟩
/-- DecodeWritesPairDifferences, DecodeWordFormForEvenWidth: `CAP` just enough, a position below and one at `M`. -/
theorem witness_DecodeWritesPairDifferences :
    idleBlock.len * idleBlock.cfg.W % 2 = 0 ∧ (idleBlock.len + 1) / 2 ≤ idleBlock.cap
    ∧ 7 < idleBlock.len * idleBlock.cfg.W / 2 ∧ idleBlock.len * idleBlock.cfg.W / 2 ≤ 8
    ∧ idleBlock.cfg.W % 2 = 0 ∧ 1 < idleBlock.len ∧ 3 < idleBlock.cfg.W / 2 := by decide
/-- DecodeFrame: a bit that is no data bit's place, in a block of `W = 3`, `LEN = 2`. -/
theorem witness_DecodeFrame :
    (∃ t, exec .decode (block (config 3 true) [0b101, 0b100] [] 2 1) = .next t)
    ∧ ∀ k, k < 2 * 3 / 2 → f2wb 3 k ≠ (1, 2) := ⟨⟨_, rfl⟩, by decide⟩
/-- DecodePreservesTheLowHalfOfAPartialWord: DV-D8, with a bit of each half. -/
theorem witness_DecodePreservesTheLowHalfOfAPartialWord :
    let s := block (config 8 true) [0x99, 0xFF, 0x5A] [0x00, 0x3C] 3 2
    s.len * s.cfg.W % 2 = 0 ∧ s.cfg.W % 2 = 0 ∧ s.len % 2 = 1 ∧ (s.len + 1) / 2 ≤ s.cap
    ∧ 3 < s.cfg.W / 2 ∧ s.cfg.W / 2 ≤ 4 ∧ 4 < s.cfg.W := by decide
/-- The block of DV-E8, used for the statements about `ENCODE`; `CAP` just enough. -/
def encodeBlock : State := block (config 8 true) [0xF0, 0x0F] [] 2 4
/-- EncodeWritesSymbols, EncodeWordFormForEvenWidth: first and last symbol, first position past the end. -/
theorem witness_EncodeWritesSymbols :
    2 * encodeBlock.len ≤ encodeBlock.cap ∧ 0 < encodeBlock.len * encodeBlock.cfg.W
    ∧ 15 < encodeBlock.len * encodeBlock.cfg.W ∧ 2 * (encodeBlock.len * encodeBlock.cfg.W) ≤ 32
    ∧ encodeBlock.cfg.W % 2 = 0 ∧ 3 < encodeBlock.cfg.W / 2 ∧ 2 + 1 < encodeBlock.cfg.W / 2 := by decide
/-- EncodeFrame: a bit past the line bits. -/
theorem witness_EncodeFrame :
    (∃ t, exec .encode (block (config 3 true) [0b011] [] 1 2) = .next t)
    ∧ ∀ k, k < 2 * (1 * 3) → f2wb 3 k ≠ (2, 2) := ⟨⟨_, rfl⟩, by decide⟩
/-- EncodeClosedForm: both clauses, the second with the other polarity. -/
theorem witness_EncodeClosedForm :
    2 * encodeBlock.len ≤ encodeBlock.cap ∧ (config 8 false).W = encodeBlock.cfg.W
    ∧ (config 8 false).IW = encodeBlock.cfg.IW ∧ (config 8 false).P0 = !encodeBlock.cfg.P0
    ∧ (∃ t, exec .encode encodeBlock = .next t)
    ∧ ∃ t', exec .encode { encodeBlock with cfg := config 8 false } = .next t' :=
  ⟨by decide, rfl, rfl, rfl, ⟨_, rfl⟩, ⟨_, rfl⟩⟩
/-- EncodeOverwritesEveryBit: another content of `OUT`, the last word written. -/
theorem witness_EncodeOverwritesEveryBit :
    2 * encodeBlock.len ≤ encodeBlock.cap ∧ 3 < 2 * encodeBlock.len
    ∧ (∃ t, exec .encode encodeBlock = .next t)
    ∧ ∃ t', exec .encode { encodeBlock with outMem := buffer (config 8 true) [0xAA] } = .next t' :=
  ⟨by decide, by decide, ⟨_, rfl⟩, ⟨_, rfl⟩⟩
/-- EmptyInputIsANoOp: with `CAP = 0`. -/
theorem witness_EmptyInputIsANoOp : (block (config 8 true) [] [] 0 0).len = 0 := by decide
/-- DecodeOfEncodeGivesTheDataBack: DV-R3, the encoded words as the input of a block of the other polarity. -/
theorem witness_DecodeOfEncodeGivesTheDataBack :
    let s := block (config 3 true) [0b101, 0b110] [] 2 4
    let u := block (config 3 false) [0b100, 0b001, 0b100, 0b111] [] 4 2
    2 * s.len ≤ s.cap ∧ u.cfg.W = s.cfg.W ∧ u.len = 2 * s.len ∧ s.len ≤ u.cap
    ∧ ∀ i, i < 2 * s.len → memRead u .input i = memRead (runEncode s) .output i := by decide +kernel
/-- LengthLaw: both commands succeed on two contents of `OUT`. -/
theorem witness_LengthLaw :
    (∃ t t', exec .decode idleBlock = .next t ∧ exec .decode { idleBlock with outMem := [] } = .next t' ∧ t.err = .ok)
    ∧ ∃ t t', exec .encode encodeBlock = .next t
        ∧ exec .encode { encodeBlock with outMem := buffer (config 8 true) [1] } = .next t' ∧ t.err = .ok :=
  ⟨⟨_, _, rfl, rfl, by decide +kernel⟩, ⟨_, _, rfl, rfl, by decide +kernel⟩⟩
/-- The two blocks of DV-D14 and DV-D16: one flat stream in words of 3 and of 6 bits. -/
def narrow : State := block (config 3 true) [0b101, 0b100] [] 2 4
def wide : State := block (config 6 true) [0b101100] [] 1 2
/-- ResultsDoNotDependOnWordWidth: DV-D14 against DV-D16. -/
theorem witness_ResultsDoNotDependOnWordWidth :
    wide.len * wide.cfg.W = narrow.len * narrow.cfg.W
    ∧ (∀ k, k < 6 → readFlat wide .input k = readFlat narrow .input k)
    ∧ wide.cfg.P0 = narrow.cfg.P0
    ∧ (runDecode narrow).err = .ok ∧ (runDecode wide).err = .ok
    ∧ (runEncode narrow).err = .ok ∧ (runEncode wide).err = .ok := by decide +kernel
/-- NoCommandWritesPastTheBuffer: DV-D9 and DV-E11, `CAP` one too small; a word at `CAP`. -/
theorem witness_NoCommandWritesPastTheBuffer :
    (let s := block (config 8 true) [0x99, 0xFF, 0x5A] [0x12] 3 1; s.cap < (s.len + 1) / 2)
    ∧ (let s := block (config 8 true) [0xF0] [0x11] 1 1; s.cap < 2 * s.len)
    ∧ (let s := block (config 3 true) [0b101] [] 1 0; s.cap < (s.len + 1) / 2 ∧ s.len * s.cfg.W % 2 = 1)
    ∧ ((∃ t, exec .decode idleBlock = .next t) ∧ idleBlock.cap ≤ 1) :=
  ⟨by decide, by decide, by decide, ⟨_, rfl⟩, by decide⟩
/-- CommandsAreFunctionsOfTheirInputs: two states that differ in `POL`, `J` and `STATUS`. -/
theorem witness_CommandsAreFunctionsOfTheirInputs :
    let s' := { idleBlock with pol := true, j := 5, status := 0b110 }
    SameRegs idleBlock s'
    ∧ (∀ w n, w < idleBlock.len → n < idleBlock.cfg.W →
        memReadBit s' .input w n = memReadBit idleBlock .input w n)
    ∧ (∀ w n, memReadBit s' .output w n = memReadBit idleBlock .output w n)
    ∧ (∃ t, exec .decode idleBlock = .next t) ∧ ∃ t', exec .decode s' = .next t' :=
  ⟨⟨rfl, rfl, rfl, rfl, rfl, rfl⟩, fun _ _ _ _ => rfl, fun _ _ => rfl, ⟨_, rfl⟩, ⟨_, rfl⟩⟩
/-- DecodeIgnoresPolarity: DV-D1 against DV-D2. -/
theorem witness_DecodeIgnoresPolarity :
    let s' := block (config 8 true) [0x66, 0x00] [0xFF] 2 1
    s'.cfg.W = idleBlock.cfg.W ∧ s'.len = idleBlock.len
    ∧ (∀ k, k < 16 → readFlat s' .input k = !readFlat idleBlock .input k)
    ∧ (runDecode idleBlock).err = .ok ∧ (runDecode s').err = .ok := by decide +kernel
/-- EncodeOfDecodeIsNotALaw: DV-R5, where the stream does not come back. -/
theorem witness_EncodeOfDecodeIsNotALaw :
    let s := block (config 8 true) [0xAA, 0x55] [] 2 1
    let u := block (config 8 true) [0xFF] [] 1 2
    (runDecode s).err = .ok ∧ u.cfg = s.cfg ∧ 2 * (u.len * s.cfg.W) = s.len * s.cfg.W
    ∧ (∀ k, k < 8 → readFlat u .input k = readFlat (runDecode s) .output k)
    ∧ (runEncode u).err = .ok ∧ memRead (runEncode u) .output 0 = 0x99 := by decide +kernel
/-- ErrorsChangeStatusOnly, RepeatingACommandChangesNothing: each error, and a success. -/
theorem witness_ErrorsChangeStatusOnly :
    expectedErr .decode (block (config 3 true) [0b101] [] 1 0) = .invalidLength
    ∧ expectedErr .decode (block (config 8 true) [0x99] [] 1 0) = .insufficientBuffer
    ∧ expectedErr .encode (block (config 8 true) [0xF0] [] 1 1) = .insufficientBuffer
    ∧ expectedErr .wb2f { block (config 3 true) [] [] 0 0 with bidx := 3 } = .invalidOperand
    ∧ (∃ t, exec .decode (block (config 8 true) [0x99] [] 1 0) = .next t ∧ t.err ≠ .ok)
    ∧ ∃ t, exec .decode idleBlock = .next t ∧ t.err = .ok :=
  ⟨by decide, by decide, by decide, by decide, ⟨_, rfl, by decide⟩, ⟨_, rfl, by decide +kernel⟩⟩
/-- EveryStepKeepsTheStateLegal, ParametersNeverChange: a legal busy state whose step answers a next state. -/
theorem witness_EveryStepKeepsTheStateLegal : Legal decodingBlock ∧ ∃ t, step decodingBlock = .next t :=
  ⟨witness_decoding_legal, ⟨_, rfl⟩⟩
/-- OnlyTheHostWritesIN: a step of a script whose first line is no store. -/
theorem witness_OnlyTheHostWritesIN :
    (∃ t, step { idleBlock with script := [.storeOut 0 1] } = .next t)
    ∧ ∀ i v rest, { idleBlock with script := [.storeOut 0 1] }.script ≠ .storeIn i v :: rest :=
  ⟨⟨_, rfl⟩, by intros; simp⟩
/-- OnlyCompletionsAndResetWriteErr: a `CMD` write, a reset and an internal step that each change `ERR`. -/
theorem witness_OnlyCompletionsAndResetWriteErr :
    (∃ t, step { idleBlock with cap := 0, script := [.write 0 0] } = .next t ∧ t.err ≠ idleBlock.err)
    ∧ (∃ t, step { idleBlock with status := 0b110, script := [.reset] } = .next t ∧ t.err ≠ .invalidOperand)
    ∧ ∃ t, step { busyBlock with cap := 0 } = .next t ∧ t.err ≠ busyBlock.err :=
  ⟨⟨_, rfl, by decide⟩, ⟨_, rfl, by decide⟩, ⟨_, rfl, by decide⟩⟩
/-- AtomicLinesNeverStop: a store of the largest word. -/
theorem witness_AtomicLinesNeverStop :
    idleBlock.isIdle ∧ (HostAction.storeIn 0 255).atomic = true
    ∧ (HostAction.storeIn 0 255).wellFormed idleBlock.cfg = true := ⟨⟨by decide, rfl⟩, rfl, by decide⟩
/-- InternalStepsShowTheHostNothing: busy at the start, in the loop, and at the completion; a word at `CAP`. -/
theorem witness_InternalStepsShowTheHostNothing :
    (Legal busyBlock ∧ busyBlock.busy = true ∧ (tick busyBlock).busy = true)
    ∧ (Legal encodingBlock ∧ encodingBlock.busy = true ∧ encodingBlock.cap ≤ 2)
    ∧ (Legal decodingBlock ∧ decodingBlock.busy = true ∧ (tick decodingBlock).busy = false) :=
  ⟨⟨witness_busy_legal, by decide, by decide⟩, ⟨witness_encoding_legal, by decide, by decide⟩,
    ⟨witness_decoding_legal, by decide, by decide⟩⟩
/-- WaitAlwaysEnds: a busy block in front of `WAIT`, and an idle one. -/
theorem witness_WaitAlwaysEnds :
    Legal { busyBlock with script := [.wait] } ∧ { busyBlock with script := [.wait] }.script = .wait :: []
    ∧ Legal { idleBlock with script := [.wait] } ∧ { idleBlock with script := [.wait] }.script = .wait :: [] :=
  ⟨by constructor <;> decide, rfl, by constructor <;> decide, rfl⟩

end Sys2Proof.Tests
end

/-! PROOFS of the state family (10_state.md sections 2 to 5): what one `HostWrite` and one `HostRead` line do, said once
per case, and the statements on the register table that follow from them. -/

namespace Sys2Proof.Machine

/-! ### The register table, one equation per number -/

@[simp] theorem regOfNumber_cmd : regOfNumber 0 = .cmd := rfl
@[simp] theorem regOfNumber_status : regOfNumber 1 = .status := rfl
@[simp] theorem regOfNumber_len : regOfNumber 2 = .len := rfl
@[simp] theorem regOfNumber_cap : regOfNumber 3 = .cap := rfl
@[simp] theorem regOfNumber_flat : regOfNumber 4 = .flat := rfl
@[simp] theorem regOfNumber_widx : regOfNumber 5 = .widx := rfl
@[simp] theorem regOfNumber_bidx : regOfNumber 6 = .bidx := rfl
@[simp] theorem regOfNumber_reserved : regOfNumber 7 = .reserved := rfl

@[simp] theorem regRead_cmd (s : State) : regRead s .cmd = 0 := rfl
@[simp] theorem regRead_status (s : State) : regRead s .status = s.status.toNat := rfl
@[simp] theorem regRead_len (s : State) : regRead s .len = s.len := rfl
@[simp] theorem regRead_cap (s : State) : regRead s .cap = s.cap := rfl
@[simp] theorem regRead_flat (s : State) : regRead s .flat = s.flat := rfl
@[simp] theorem regRead_widx (s : State) : regRead s .widx = s.widx := rfl
@[simp] theorem regRead_bidx (s : State) : regRead s .bidx = s.bidx.toNat := rfl
@[simp] theorem regRead_reserved (s : State) : regRead s .reserved = 0 := rfl

@[simp] theorem regWrite_status (s : State) (v : Nat) : regWrite s .status v = s := rfl
@[simp] theorem regWrite_len (s : State) (v : Nat) :
    regWrite s .len v = { s with len := v % 2 ^ s.cfg.IW } := rfl
@[simp] theorem regWrite_cap (s : State) (v : Nat) :
    regWrite s .cap v = { s with cap := v % 2 ^ (s.cfg.IW + 1) } := rfl
@[simp] theorem regWrite_flat (s : State) (v : Nat) :
    regWrite s .flat v = { s with flat := v % 2 ^ (s.cfg.IW + 9) } := rfl
@[simp] theorem regWrite_widx (s : State) (v : Nat) :
    regWrite s .widx v = { s with widx := v % 2 ^ (s.cfg.IW + 9) } := rfl
@[simp] theorem regWrite_bidx (s : State) (v : Nat) :
    regWrite s .bidx v = { s with bidx := BitVec.ofNat 8 v } := rfl
@[simp] theorem regWrite_reserved (s : State) (v : Nat) : regWrite s .reserved v = s := rfl

/-- Cutting the value to the two bits of `CMD` does not change the command it selects (10_state.md R22). -/
theorem decode_trunc_two (v : Nat) : decode (trunc 2 v) = decode v :=
  Laws.Codes.decode_of_mod (Nat.mod_mod v 4)

/-! ### `HostWrite`, its three cases -/

theorem hostWrite_of_busy {s : State} (hb : s.busy = true) (r : Fin 8) (v : Nat) :
    hostWrite r v s = .next s := by
  simp [hostWrite, hb]

theorem hostWrite_cmd_of_idle {s : State} (hb : s.busy = false) (v : Nat) :
    hostWrite 0 v s = exec (decode v) s := by
  simp [hostWrite, hb]

theorem hostWrite_of_idle {s : State} (hb : s.busy = false) {r : Fin 8} (hr : r ≠ 0) (v : Nat) :
    hostWrite r v s = .next (regWrite s (regOfNumber r) v) := by
  have hcmd : regOfNumber r ≠ .cmd := by revert r; decide
  simp only [hostWrite, hb]
  cases h : regOfNumber r with
  | cmd => exact absurd h hcmd
  | status | len | cap | flat | widx | bidx | reserved => rfl

/-! ### The step of a script whose next line is a register access -/

theorem step_of_script_cons {s : State} {a : HostAction} {rest : List HostAction} (hs : s.script = a :: rest) :
    step s = hostStep a { s with script := rest } := by
  simp [step, hs]

section RegisterAccess

variable {s : State} {r : Fin 8} {v : Nat} {rest : List HostAction}

theorem step_write_of_busy (hs : s.script = .write r v :: rest) (hb : s.busy = true) :
    step s = .next { s with script := rest } :=
  (step_of_script_cons hs).trans (hostWrite_of_busy (s := { s with script := rest }) hb r v)

theorem step_write_cmd_of_idle (hs : s.script = .write 0 v :: rest) (hb : s.busy = false) :
    step s = exec (decode v) { s with script := rest } :=
  (step_of_script_cons hs).trans (hostWrite_cmd_of_idle (s := { s with script := rest }) hb v)

theorem step_write_of_idle (hs : s.script = .write r v :: rest) (hb : s.busy = false) (hr : r ≠ 0) :
    step s = .next (regWrite { s with script := rest } (regOfNumber r) v) :=
  (step_of_script_cons hs).trans (hostWrite_of_idle (s := { s with script := rest }) hb hr v)

/-- `STATUS` and the reserved register store nothing, idle or busy (10_state.md R23, R30). -/
theorem step_write_of_not_stored (hs : s.script = .write r v :: rest) (hr : r = 1 ∨ r = 7) :
    step s = .next { s with script := rest } := by
  cases hb : s.busy with
  | true => exact step_write_of_busy hs hb
  | false => obtain rfl | rfl := hr <;> simp [step_write_of_idle hs hb]

theorem step_read (hs : s.script = .read r :: rest) :
    step s = .next { s with script := rest, noted := s.noted ++ [regRead s (regOfNumber r)] } :=
  step_of_script_cons hs

end RegisterAccess

/-! ### The obligations -/

/-- Settles O7 (10_state.md R29): the busy and idle cases of a write, then the value a read notes, register by
register. -/
theorem hostReadAndWriteFollowTheTable : Obligations.HostReadAndWriteFollowTheTable := by
  intro s r v rest
  constructor
  · intro hs
    refine ⟨step_write_of_busy hs, fun hb => ⟨?cmd, step_write_of_not_stored hs, ?len, ?cap, ?flat, ?widx, ?bidx⟩⟩
    case cmd => rintro rfl; exact step_write_cmd_of_idle hs hb
    case bidx => rintro rfl; exact ⟨BitVec.ofNat 8 v, BitVec.toNat_ofNat v 8, by simp [step_write_of_idle hs hb]⟩
    all_goals rintro rfl; simp [step_write_of_idle hs hb]
  · intro hs
    refine ⟨regRead s (regOfNumber r), step_read hs, ?readsZero, ?_, ?_, ?_, ?_, ?_, ?_⟩
    case readsZero => rintro (rfl | rfl) <;> simp
    all_goals rintro rfl; simp

/-- Settles O4 (10_state.md R22): the idle write, the busy write and the read of register 0. -/
theorem cmdRegisterStartsCommands : Obligations.CmdRegisterStartsCommands := by
  intro s v rest
  refine ⟨fun hs hb => ?_, step_write_of_busy, step_read⟩
  rw [decode_trunc_two]
  exact step_write_cmd_of_idle hs hb

/-- Settles O6 (10_state.md R30): register 7 is one of the two that store nothing, and it reads 0. -/
theorem reservedRegisterIsInert : Obligations.ReservedRegisterIsInert := by
  intro s v rest
  exact ⟨fun hs => step_write_of_not_stored hs (.inr rfl), step_read⟩

end Sys2Proof.Machine

/-! PROOFS of the encoding family (30_encoding.md section 3): the symbol code of the encoder and of the decoder. -/

namespace Sys2Proof.Machine

/-- The decoder undoes the encoder's symbol at either polarity: the level `p` stands in both halves and cancels
(30_encoding.md R86, R87). -/
@[simp] theorem pairBit_symbol (p d : Bit) : pairBit (symbol p d).1 (symbol p d).2 = d :=
  Bool.bne_self_left p d

/-- Settles O24 (30_encoding.md R86, R87): the rows of the two tables by evaluation, the way back for every polarity
and data bit by cancellation. -/
theorem symbolCodeFollowsTheTables : Obligations.SymbolCodeFollowsTheTables :=
  ⟨rfl, rfl, rfl, rfl, rfl, rfl, rfl, rfl, pairBit_symbol⟩

end Sys2Proof.Machine

/-! PROOFS of the decoder family (41_decoder.md sections 2 to 4): how many bits and words `DECODE` writes, what it
leaves at one bit of `OUT`, and the statements that read this by flat position and by word. -/

namespace Sys2Proof.Machine

/-! ### The two maps between flat positions and bits of words -/

@[simp] theorem f2wb_wb2f {W n : Nat} (hn : n < W) (w : Nat) : f2wb W (wb2f W w n) = (w, n) :=
  (f2wb_eq_iff hn _ _).mpr rfl

@[simp] theorem wb2f_f2wb {W : Nat} (hW : 1 ≤ W) (k : Nat) : wb2f W (f2wb W k).1 (f2wb W k).2 = k :=
  ((f2wb_eq_iff (f2wb_bit_lt hW k) _ _).mp rfl).symm

theorem readFlat_wb2f (s : State) (sp : Space) (w : Nat) {n : Nat} (hn : n < s.cfg.W) :
    readFlat s sp (wb2f s.cfg.W w n) = memReadBit s sp w n := by
  simp [readFlat, hn]

/-! ### `M` and the capacity check, by the parity of `LEN` -/

theorem decodeBits_of_even_len {s : State} (hL : s.len % 2 = 0) : decodeBits s = s.len / 2 * s.cfg.W :=
  (Nat.div_mul_right_comm (Nat.dvd_of_mod_eq_zero hL) s.cfg.W).symm

theorem decodeBits_of_even_width {s : State} (hW : s.cfg.W % 2 = 0) : decodeBits s = s.len * (s.cfg.W / 2) :=
  Nat.mul_div_assoc s.len (Nat.dvd_of_mod_eq_zero hW)

/-- With `LEN` odd the last output word is written in its top half only (41_decoder.md R114). -/
theorem decodeBits_of_odd_len {s : State} (hL : s.len % 2 = 1) (hW : s.cfg.W % 2 = 0) :
    decodeBits s = s.len / 2 * s.cfg.W + s.cfg.W / 2 := by
  have hlen : s.len = 2 * (s.len / 2) + 1 := by omega
  have hwidth : s.cfg.W = 2 * (s.cfg.W / 2) := by omega
  calc decodeBits s = s.len * (s.cfg.W / 2) := decodeBits_of_even_width hW
    _ = (2 * (s.len / 2) + 1) * (s.cfg.W / 2) := by rw [← hlen]
    _ = s.len / 2 * (2 * (s.cfg.W / 2)) + s.cfg.W / 2 := by ring
    _ = s.len / 2 * s.cfg.W + s.cfg.W / 2 := by rw [← hwidth]

/-- The input has an even number of bits exactly when `LEN` or `W` is even. -/
theorem inputBits_even_iff (s : State) : inputBits s % 2 = 0 ↔ s.len % 2 = 0 ∨ s.cfg.W % 2 = 0 := by
  simp only [inputBits, ← Nat.even_iff, Nat.even_mul]

/-- `ceil(M / W) = ceil(LEN / 2)` when the length check passes (41_decoder.md R111). -/
theorem decodeNeed_eq {s : State} (h : inputBits s % 2 = 0) : decodeNeed s = (s.len + 1) / 2 := by
  have hW := s.cfg.one_le_W
  unfold decodeNeed
  rcases Nat.mod_two_eq_zero_or_one s.len with hL | hL
  · rw [decodeBits_of_even_len hL, show (s.len + 1) / 2 = s.len / 2 by omega]
    exact Nat.div_eq_of_lt_le (by omega) (by rw [Nat.succ_mul]; omega)
  · have hWe : s.cfg.W % 2 = 0 := by rw [inputBits_even_iff] at h; omega
    rw [decodeBits_of_odd_len hL hWe, show (s.len + 1) / 2 = s.len / 2 + 1 by omega]
    exact Nat.div_eq_of_lt_le (by rw [Nat.succ_mul]; omega) (by rw [Nat.succ_mul, Nat.succ_mul]; omega)

/-- Both checks of 41_decoder.md R111 pass, said of the registers and parameters. -/
theorem decodeError_eq_none {s : State} (heven : s.len * s.cfg.W % 2 = 0) (hcap : (s.len + 1) / 2 ≤ s.cap) :
    decodeError s = none :=
  (decodeError_none_iff s).mpr ⟨heven, (decodeNeed_eq heven).trans_le hcap⟩

/-! ### What `DECODE` leaves when both checks pass -/

section Decoded

variable {s : State} (h : decodeError s = none)
include h

theorem runDecode_err : (runDecode s).err = .ok := by
  rw [runDecode_of_none h, finish_err]

theorem runDecode_busy : (runDecode s).busy = false := by
  rw [runDecode_of_none h, finish_busy]

theorem runDecode_cfg : (runDecode s).cfg = s.cfg := by
  obtain ⟨⟨hcfg, -⟩, -⟩ := decodeLoop_frame (decodeBits s) (decodeStart s)
  rw [runDecode_of_none h, finish_cfg, hcfg, decodeStart_cfg]

theorem runDecode_inMem : (runDecode s).inMem = s.inMem := by
  obtain ⟨-, -, -, -, hin, -⟩ := decodeLoop_frame (decodeBits s) (decodeStart s)
  rw [runDecode_of_none h, finish_inMem, hin, decodeStart_inMem]

/-- One bit of `OUT` after `DECODE`: the data bit whose place it is, the old bit where there is none. -/
theorem memReadBit_runDecode (i n : Nat) :
    memReadBit (runDecode s) .output i n =
      if n < s.cfg.W ∧ wb2f s.cfg.W i n < decodeBits s then
        pairBit (readFlat s .input (2 * wb2f s.cfg.W i n)) (readFlat s .input (2 * wb2f s.cfg.W i n + 1))
      else memReadBit s .output i n := by
  have hstart : ∀ k, readFlat (decodeStart s) .input k = readFlat s .input k :=
    readFlat_input_congr (decodeStart_cfg s) (decodeStart_inMem s)
  rw [runDecode_of_none h, memReadBit_output_congr (finish_outMem .ok _), decodeLoop_bit,
    memReadBit_output_congr (decodeStart_outMem s)]
  simp [hstart]

/-- One flat position of `OUT` after `DECODE` (41_decoder.md R112). -/
theorem readFlat_runDecode (k : Nat) :
    readFlat (runDecode s) .output k =
      if k < decodeBits s then pairBit (readFlat s .input (2 * k)) (readFlat s .input (2 * k + 1))
      else readFlat s .output k := by
  have hW := s.cfg.one_le_W
  rw [readFlat, runDecode_cfg h, memReadBit_runDecode h, wb2f_f2wb hW]
  simp only [f2wb_bit_lt hW, true_and, readFlat]

end Decoded

/-! ### The place of a data bit for even `W` (41_decoder.md R113) -/

/-- The bit of `OUT[i div 2]` that takes the data bit of symbol `q` of `IN[i]`. -/
def dataBitPlace (W i q : Nat) : Nat := if i % 2 = 0 then W - 1 - q else W / 2 - 1 - q

theorem dataBitPlace_lt {W q : Nat} (hq : q < W / 2) (i : Nat) : dataBitPlace W i q < W := by
  unfold dataBitPlace
  split <;> omega

/-- Data bits of one input word follow each other, and each input word gives `W / 2` of them. -/
theorem wb2f_dataBitPlace {W q : Nat} (hW : W % 2 = 0) (hq : q < W / 2) (i : Nat) :
    wb2f W (i / 2) (dataBitPlace W i q) = i * (W / 2) + q := by
  have hwidth : W = 2 * (W / 2) := by omega
  have hi : i = 2 * (i / 2) + i % 2 := by omega
  have hstart : i * (W / 2) = i / 2 * W + i % 2 * (W / 2) := by
    calc i * (W / 2) = (2 * (i / 2) + i % 2) * (W / 2) := by rw [← hi]
      _ = i / 2 * (2 * (W / 2)) + i % 2 * (W / 2) := by ring
      _ = i / 2 * W + i % 2 * (W / 2) := by rw [← hwidth]
  rw [hstart]
  rcases Nat.mod_two_eq_zero_or_one i with hpar | hpar
  · rw [dataBitPlace, if_pos hpar, wb2f, hpar]; omega
  · rw [dataBitPlace, if_neg (by omega), wb2f, hpar]; omega

/-- The two halves of symbol `q` of `IN[i]`, by flat position: for even `W` no symbol straddles two words. -/
theorem readFlat_symbol_halves {s : State} (sp : Space) {q : Nat} (hW : s.cfg.W % 2 = 0) (hq : q < s.cfg.W / 2)
    (i : Nat) :
    readFlat s sp (2 * (i * (s.cfg.W / 2) + q)) = memReadBit s sp i (s.cfg.W - 1 - 2 * q)
      ∧ readFlat s sp (2 * (i * (s.cfg.W / 2) + q) + 1) = memReadBit s sp i (s.cfg.W - 2 - 2 * q) := by
  have hword : 2 * (i * (s.cfg.W / 2)) = i * s.cfg.W := by
    rw [Nat.mul_left_comm, Nat.mul_div_cancel' (Nat.dvd_of_mod_eq_zero hW)]
  rw [← readFlat_wb2f s sp i (n := s.cfg.W - 1 - 2 * q) (by omega),
    ← readFlat_wb2f s sp i (n := s.cfg.W - 2 - 2 * q) (by omega)]
  constructor <;> congr 1 <;> simp only [wb2f] <;> omega

/-! ### Both commands with nothing to do -/

/-- With `LEN = 0` the decoder's loop has no position (41_decoder.md R116). -/
theorem runDecode_of_len_zero {s : State} (hlen : s.len = 0) :
    runDecode s = finish .ok (decodeStart s) := by
  have hnone : decodeError s = none := decodeError_eq_none (by simp [hlen]) (by simp [hlen])
  have hbits : decodeBits s = 0 := by simp [decodeBits, inputBits, hlen]
  rw [runDecode_of_none hnone, hbits, Function.iterate_zero_apply]

/-- With `LEN = 0` the encoder's loop has no position (42_encoder.md R137). -/
theorem runEncode_of_len_zero {s : State} (hlen : s.len = 0) :
    runEncode s = finish .ok (encodeStart s) := by
  have hnone : encodeError s = none := (encodeError_none_iff s).mpr (by simp [encodeNeed, hlen])
  have hbits : inputBits s = 0 := by simp [inputBits, hlen]
  rw [runEncode_of_none hnone, hbits, Function.iterate_zero_apply]

/-! ### The obligations -/

/-- Settles O25 (41_decoder.md R112, 44_codec_laws.md R172): the two cases of one flat position of `OUT`. -/
theorem decodeWritesPairDifferences : Obligations.DecodeWritesPairDifferences := by
  intro s heven hcap
  have h := decodeError_eq_none heven hcap
  refine ⟨runDecode s, exec_eq .decode s, runDecode_err h, runDecode_busy h, runDecode_inMem h, ?_, ?_⟩
  · intro j hj
    rw [readFlat_runDecode h, if_pos (show j < decodeBits s from hj), pairBit]
  · intro k hk
    rw [readFlat_runDecode h, if_neg (show ¬ k < decodeBits s from Nat.not_lt.mpr hk)]

/-- Settles O27 (41_decoder.md R113): the bit named there is the place of data bit `i * (W / 2) + q`, whose pair is
symbol `q` of `IN[i]`. -/
theorem decodeWordFormForEvenWidth : Obligations.DecodeWordFormForEvenWidth := by
  intro s hW hcap
  have h : decodeError s = none := decodeError_eq_none ((inputBits_even_iff s).mpr (.inr hW)) hcap
  refine ⟨runDecode s, exec_eq .decode s, fun i q hi hq => ?_⟩
  obtain ⟨hfirst, hsecond⟩ := readFlat_symbol_halves .input hW hq i
  have hbit : i * (s.cfg.W / 2) + q < decodeBits s := by
    calc i * (s.cfg.W / 2) + q < (i + 1) * (s.cfg.W / 2) := by rw [Nat.succ_mul]; omega
      _ ≤ s.len * (s.cfg.W / 2) := Nat.mul_le_mul_right _ hi
      _ = decodeBits s := (decodeBits_of_even_width hW).symm
  change memReadBit (runDecode s) .output (i / 2) (dataBitPlace s.cfg.W i q) = _
  rw [memReadBit_runDecode h, wb2f_dataBitPlace hW hq, if_pos ⟨dataBitPlace_lt hq i, hbit⟩, hfirst, hsecond, pairBit]

/-- Settles O28 (41_decoder.md R114): `M` is a whole number of words for even `LEN` and half a word more for odd
`LEN`; in the last word the bits below `W / 2` then lie past `M`, the others below it. -/
theorem decodePreservesTheLowHalfOfAPartialWord : Obligations.DecodePreservesTheLowHalfOfAPartialWord := by
  intro s heven
  have hWpos := s.cfg.one_le_W
  change (decodeBits s % s.cfg.W ≠ 0 ↔ _) ∧ (_ → _ → _ → decodeBits s % s.cfg.W = s.cfg.W / 2 ∧ _)
  have hodd (hW : s.cfg.W % 2 = 0) (hL : s.len % 2 = 1) : decodeBits s % s.cfg.W = s.cfg.W / 2 := by
    rw [decodeBits_of_odd_len hL hW, Nat.mul_add_mod_self_right, Nat.mod_eq_of_lt (by omega)]
  refine ⟨⟨fun hne => ?_, fun ⟨hW, hL⟩ => ?_⟩, fun hW hL hcap => ⟨hodd hW hL, ?_⟩⟩
  · have hL : s.len % 2 ≠ 0 := fun hL => hne (by rw [decodeBits_of_even_len hL, Nat.mul_mod_left])
    exact ⟨((inputBits_even_iff s).mp heven).resolve_left hL, Nat.mod_two_ne_zero.mp hL⟩
  · rw [hodd hW hL]; omega
  · have h := decodeError_eq_none heven hcap
    have hM := decodeBits_of_odd_len hL hW
    rw [show (s.len - 1) / 2 = s.len / 2 by omega]
    refine ⟨runDecode s, exec_eq .decode s, fun n hn => ?_, fun n hn hnW => ?_⟩
    · rw [memReadBit_runDecode h, if_neg (by rw [hM, wb2f]; omega)]
    · rw [memReadBit_runDecode h, if_pos (by rw [hM, wb2f]; omega), pairBit]

/-- Settles O34 (44_codec_laws.md R174): with no position to pass, each command is its start and its completion,
whatever the memories hold; `J` ends at 0. -/
theorem emptyInputIsANoOp : Obligations.EmptyInputIsANoOp := by
  intro s hlen
  refine ⟨⟨0, fun mi mo => ?_⟩, ⟨0, fun mi mo => ?_⟩⟩
  · exact (exec_eq .decode _).trans (congrArg _ (runDecode_of_len_zero hlen))
  · exact (exec_eq .encode _).trans (congrArg _ (runEncode_of_len_zero hlen))

end Sys2Proof.Machine

/-! PROOFS of the encoder family (42_encoder.md R132 to R136): the line bits as a function of the input, what `ENCODE`
leaves at one bit of `OUT` and how it runs on from symbol to symbol, and the statements that read this by flat
position and by word. -/

namespace Sys2Proof.Machine

/-! ### The line stream (42_encoder.md R134) -/

/-- Line bit `k` of the encoded input: `P0` after the data bits of the symbol halves up to `k` have each flipped it. -/
def lineBit (s : State) (k : Nat) : Bit := s.cfg.P0 ^^ prefixParity (readFlat s .input) ((k + 1) / 2)

theorem lineBit_first (s : State) (j : Nat) :
    lineBit s (2 * j) = (s.cfg.P0 ^^ prefixParity (readFlat s .input) j) := by
  rw [lineBit, show (2 * j + 1) / 2 = j by omega]

theorem lineBit_second (s : State) (j : Nat) :
    lineBit s (2 * j + 1) = (s.cfg.P0 ^^ prefixParity (readFlat s .input) (j + 1)) := by
  rw [lineBit, show (2 * j + 1 + 1) / 2 = j + 1 by omega]

theorem lineBit_zero (s : State) : lineBit s 0 = s.cfg.P0 := Bool.xor_false _

theorem lineBit_mid_symbol (s : State) (j : Nat) :
    lineBit s (2 * j + 1) = (lineBit s (2 * j) ^^ readFlat s .input j) := by
  rw [lineBit_first, lineBit_second, prefixParity, Bool.xor_assoc]

theorem lineBit_between_symbols (s : State) (j : Nat) : lineBit s (2 * (j + 1)) = lineBit s (2 * j + 1) := by
  rw [lineBit_first, lineBit_second]

theorem lineBit_of_not_P0 {s : State} {c : Config} (hW : c.W = s.cfg.W) (hP : c.P0 = !s.cfg.P0) (k : Nat) :
    lineBit { s with cfg := c } k = !lineBit s k := by
  have hin : readFlat { s with cfg := c } .input = readFlat s .input := by
    funext k
    simp only [readFlat, hW, memReadBit, State.mem]
  rw [lineBit, lineBit, hin, ← Bool.not_xor, ← hP]

/-! ### What `ENCODE` leaves when its check passes -/

theorem encodeError_eq_none {s : State} (hcap : 2 * s.len ≤ s.cap) : encodeError s = none :=
  (encodeError_none_iff s).mpr hcap

theorem eq_runEncode_of_exec {s t : State} (h : exec .encode s = .next t) : t = runEncode s := by
  rw [exec_eq] at h
  cases h
  rfl

@[simp] theorem readFlat_encodeStart_input (s : State) (k : Nat) :
    readFlat (encodeStart s) .input k = readFlat s .input k :=
  readFlat_input_congr (encodeStart_cfg s) (encodeStart_inMem s) k

section Encoded

variable {s : State} (h : encodeError s = none)
include h

theorem runEncode_err : (runEncode s).err = .ok := by
  rw [runEncode_of_none h, finish_err]

theorem runEncode_busy : (runEncode s).busy = false := by
  rw [runEncode_of_none h, finish_busy]

theorem runEncode_cfg : (runEncode s).cfg = s.cfg := by
  obtain ⟨⟨hcfg, -⟩, -⟩ := encodeLoop_frame (inputBits s) (encodeStart s)
  rw [runEncode_of_none h, finish_cfg, hcfg, encodeStart_cfg]

theorem runEncode_inMem : (runEncode s).inMem = s.inMem := by
  obtain ⟨-, -, -, hin, -⟩ := encodeLoop_frame (inputBits s) (encodeStart s)
  rw [runEncode_of_none h, finish_inMem, hin, encodeStart_inMem]

/-- One bit of `OUT` after `ENCODE`: the line bit whose place it is, the old bit where there is none. -/
theorem memReadBit_runEncode (i n : Nat) :
    memReadBit (runEncode s) .output i n =
      if n < s.cfg.W ∧ wb2f s.cfg.W i n < 2 * inputBits s then lineBit s (wb2f s.cfg.W i n)
      else memReadBit s .output i n := by
  rw [runEncode_of_none h, memReadBit_output_congr (finish_outMem .ok _), encodeLoop_bit,
    memReadBit_output_congr (encodeStart_outMem s)]
  simp [lineBit]

/-- One flat position of `OUT` after `ENCODE` (42_encoder.md R132). -/
theorem readFlat_runEncode (k : Nat) :
    readFlat (runEncode s) .output k = if k < 2 * inputBits s then lineBit s k else readFlat s .output k := by
  have hW := s.cfg.one_le_W
  rw [readFlat, runEncode_cfg h, memReadBit_runEncode h, wb2f_f2wb hW]
  simp only [f2wb_bit_lt hW, true_and, readFlat]

/-- `POL` ends as the level after all `T` data bits (42_encoder.md R133). -/
theorem runEncode_pol :
    (runEncode s).pol = (s.cfg.P0 ^^ prefixParity (readFlat s .input) (inputBits s)) := by
  obtain ⟨-, -, -, -, -, -, hpol⟩ := encodeLoop_frame (inputBits s) (encodeStart s)
  rw [runEncode_of_none h, finish_pol, hpol]
  simp

/-! The level within a symbol and from one symbol to the next (42_encoder.md R132). -/

theorem runEncode_line {k : Nat} (hk : k < 2 * inputBits s) :
    readFlat (runEncode s) .output k = lineBit s k := by
  rw [readFlat_runEncode h, if_pos hk]

theorem runEncode_first_symbol (hT : 0 < inputBits s) : readFlat (runEncode s) .output 0 = s.cfg.P0 := by
  rw [runEncode_line h (by omega), lineBit_zero]

theorem runEncode_mid_symbol {j : Nat} (hj : j < inputBits s) :
    readFlat (runEncode s) .output (2 * j + 1)
      = (readFlat (runEncode s) .output (2 * j) ^^ readFlat s .input j) := by
  rw [runEncode_line h (by omega), runEncode_line h (by omega), lineBit_mid_symbol]

theorem runEncode_between_symbols {j : Nat} (hj : j + 1 < inputBits s) :
    readFlat (runEncode s) .output (2 * (j + 1)) = readFlat (runEncode s) .output (2 * j + 1) := by
  rw [runEncode_line h (by omega), runEncode_line h (by omega), lineBit_between_symbols]

end Encoded

/-! ### One output word (42_encoder.md R135, R136) -/

/-- The line bits fill the words below `2 * LEN`, for every width. -/
theorem wb2f_lt_lineBits {s : State} {i n : Nat} (hi : i < 2 * s.len) (hn : n < s.cfg.W) :
    wb2f s.cfg.W i n < 2 * inputBits s := by
  calc wb2f s.cfg.W i n < (i + 1) * s.cfg.W := by rw [wb2f, Nat.succ_mul]; omega
    _ ≤ 2 * s.len * s.cfg.W := Nat.mul_le_mul_right _ hi
    _ = 2 * inputBits s := Nat.mul_assoc 2 s.len s.cfg.W

theorem memRead_runEncode_testBit {s : State} (h : encodeError s = none) {i : Nat} (hi : i < 2 * s.len) (n : Nat) :
    (memRead (runEncode s) .output i).testBit n = (decide (n < s.cfg.W) && lineBit s (wb2f s.cfg.W i n)) := by
  rw [testBit_memRead, runEncode_cfg h]
  by_cases hn : n < s.cfg.W
  · rw [memReadBit_runEncode h, if_pos ⟨hn, wb2f_lt_lineBits hi hn⟩]
  · simp [hn]

section EvenWidth

variable {s : State} (h : encodeError s = none) (hW : s.cfg.W % 2 = 0)
include h hW

theorem memReadBit_runEncode_halves {q : Nat} (hq : q < s.cfg.W / 2) (w : Nat) :
    memReadBit (runEncode s) .output w (s.cfg.W - 1 - 2 * q)
        = readFlat (runEncode s) .output (2 * (w * (s.cfg.W / 2) + q))
      ∧ memReadBit (runEncode s) .output w (s.cfg.W - 2 - 2 * q)
        = readFlat (runEncode s) .output (2 * (w * (s.cfg.W / 2) + q) + 1) := by
  rw [← runEncode_cfg h] at hW hq ⊢
  obtain ⟨hfirst, hsecond⟩ := readFlat_symbol_halves .output hW hq w
  exact ⟨hfirst.symm, hsecond.symm⟩

omit h in
/-- Symbol `q` of output word `w` is one of the `T` symbols. -/
theorem symbol_lt_inputBits {w q : Nat} (hw : w < 2 * s.len) (hq : q < s.cfg.W / 2) :
    w * (s.cfg.W / 2) + q < inputBits s := by
  calc w * (s.cfg.W / 2) + q < (w + 1) * (s.cfg.W / 2) := by rw [Nat.succ_mul]; omega
    _ ≤ 2 * s.len * (s.cfg.W / 2) := Nat.mul_le_mul_right _ hw
    _ = s.len * (2 * (s.cfg.W / 2)) := by ring
    _ = inputBits s := by rw [Nat.mul_div_cancel' (Nat.dvd_of_mod_eq_zero hW), inputBits]

/-- The data bits of output word `w` are one half of `IN[w / 2]`. -/
theorem runEncode_word_mid_symbol {w q : Nat} (hw : w < 2 * s.len) (hq : q < s.cfg.W / 2) :
    memReadBit (runEncode s) .output w (s.cfg.W - 2 - 2 * q)
      = (memReadBit (runEncode s) .output w (s.cfg.W - 1 - 2 * q)
          ^^ memReadBit s .input (w / 2) (dataBitPlace s.cfg.W w q)) := by
  obtain ⟨hfirst, hsecond⟩ := memReadBit_runEncode_halves h hW hq w
  rw [hfirst, hsecond, runEncode_mid_symbol h (symbol_lt_inputBits hW hw hq), ← wb2f_dataBitPlace hW hq,
    readFlat_wb2f s .input _ (dataBitPlace_lt hq w)]

theorem runEncode_word_between_symbols {w q : Nat} (hw : w < 2 * s.len) (hq : q + 1 < s.cfg.W / 2) :
    memReadBit (runEncode s) .output w (s.cfg.W - 1 - 2 * (q + 1))
      = memReadBit (runEncode s) .output w (s.cfg.W - 2 - 2 * q) := by
  rw [(memReadBit_runEncode_halves h hW hq w).1, (memReadBit_runEncode_halves h hW (by omega) w).2]
  exact runEncode_between_symbols h (symbol_lt_inputBits hW hw hq)

theorem runEncode_first_word (hlen : 0 < s.len) :
    memReadBit (runEncode s) .output 0 (s.cfg.W - 1) = s.cfg.P0 := by
  have hWpos := s.cfg.one_le_W
  have hhalf : 0 < s.cfg.W / 2 := by omega
  have hT : 0 < inputBits s := Nat.mul_pos hlen hWpos
  calc memReadBit (runEncode s) .output 0 (s.cfg.W - 1)
      = readFlat (runEncode s) .output (2 * (0 * (s.cfg.W / 2) + 0)) := (memReadBit_runEncode_halves h hW hhalf 0).1
    _ = readFlat (runEncode s) .output 0 := by rw [Nat.zero_mul]
    _ = s.cfg.P0 := runEncode_first_symbol h hT

/-- The last symbol of word `w` is the one before the first of word `w + 1`. -/
theorem runEncode_between_words {w : Nat} (hw : w + 1 < 2 * s.len) :
    memReadBit (runEncode s) .output (w + 1) (s.cfg.W - 1) = memReadBit (runEncode s) .output w 0 := by
  have hWpos := s.cfg.one_le_W
  have hhalf : 0 < s.cfg.W / 2 := by omega
  have hlast : s.cfg.W / 2 - 1 < s.cfg.W / 2 := by omega
  have hnext : (w + 1) * (s.cfg.W / 2) + 0 = w * (s.cfg.W / 2) + (s.cfg.W / 2 - 1) + 1 := by
    rw [Nat.succ_mul]; omega
  have hbound := symbol_lt_inputBits hW hw hhalf
  rw [hnext] at hbound
  calc memReadBit (runEncode s) .output (w + 1) (s.cfg.W - 1)
      = readFlat (runEncode s) .output (2 * ((w + 1) * (s.cfg.W / 2) + 0)) :=
        (memReadBit_runEncode_halves h hW hhalf (w + 1)).1
    _ = readFlat (runEncode s) .output (2 * (w * (s.cfg.W / 2) + (s.cfg.W / 2 - 1)) + 1) := by
        rw [hnext, runEncode_between_symbols h hbound]
    _ = memReadBit (runEncode s) .output w (s.cfg.W - 2 - 2 * (s.cfg.W / 2 - 1)) :=
        (memReadBit_runEncode_halves h hW hlast w).2.symm
    _ = memReadBit (runEncode s) .output w 0 := by
        rw [show s.cfg.W - 2 - 2 * (s.cfg.W / 2 - 1) = 0 by omega]

end EvenWidth

/-! ### The obligations -/

/-- Settles O29 (42_encoder.md R132, R133): the level of the first symbol, within a symbol and between symbols; and
`POL` is the line bit at `2T - 1`, the second half of the last symbol. -/
theorem encodeWritesSymbols : Obligations.EncodeWritesSymbols := by
  intro s hcap
  have h := encodeError_eq_none hcap
  refine ⟨runEncode s, exec_eq .encode s, runEncode_err h, runEncode_busy h, runEncode_inMem h,
    ?symbols, ?rest, ?pol⟩
  case symbols =>
    intro j hj
    refine ⟨?_, runEncode_mid_symbol h hj⟩
    cases j with
    | zero => exact runEncode_first_symbol h hj
    | succ j => exact runEncode_between_symbols h hj
  case rest =>
    intro k hk
    rw [readFlat_runEncode h, if_neg (show ¬ k < 2 * inputBits s from Nat.not_lt.mpr hk)]
  case pol =>
    change _ = if inputBits s = 0 then _ else readFlat (runEncode s) .output (2 * inputBits s - 1)
    rw [runEncode_pol h]
    cases hT : inputBits s with
    | zero => exact Bool.xor_false _
    | succ T =>
      rw [if_neg (Nat.succ_ne_zero T), runEncode_line h (by omega), show 2 * (T + 1) - 1 = 2 * T + 1 by omega,
        lineBit_second]

/-- Settles O31 (42_encoder.md R134): each line bit is `lineBit`, and another `P0` complements it. -/
theorem encodeClosedForm : Obligations.EncodeClosedForm := by
  constructor
  · intro s t hcap ht j hj
    obtain rfl := eq_runEncode_of_exec ht
    have h := encodeError_eq_none hcap
    change j < inputBits s at hj
    refine ⟨?first, ?second, ?flips, runEncode_between_symbols h⟩
    case first => rw [runEncode_line h (by omega), lineBit_first]
    case second => rw [runEncode_line h (by omega), lineBit_second]
    case flips =>
      rw [runEncode_mid_symbol h hj]
      cases readFlat s .input j <;> simp
  · intro s t t' c hW _ hP hcap ht ht' k hk
    obtain rfl := eq_runEncode_of_exec ht
    obtain rfl := eq_runEncode_of_exec ht'
    have h : encodeError s = none := encodeError_eq_none hcap
    have h' : encodeError { s with cfg := c } = none := encodeError_eq_none hcap
    have hk' : k < 2 * inputBits { s with cfg := c } := by simpa only [inputBits, hW] using hk
    rw [runEncode_line h hk, runEncode_line h' hk', lineBit_of_not_P0 hW hP]

/-- Settles O32 (42_encoder.md R136): every bit of these words is a line bit, and no line bit depends on `OUT`. -/
theorem encodeOverwritesEveryBit : Obligations.EncodeOverwritesEveryBit := by
  intro s t t' m hcap ht ht' i hi
  obtain rfl := eq_runEncode_of_exec ht
  obtain rfl := eq_runEncode_of_exec ht'
  have h : encodeError s = none := encodeError_eq_none hcap
  have h' : encodeError { s with outMem := m } = none := encodeError_eq_none hcap
  have hline : lineBit { s with outMem := m } = lineBit s := rfl
  refine Nat.eq_of_testBit_eq fun n => ?_
  rw [memRead_runEncode_testBit h hi, memRead_runEncode_testBit h' hi, hline]

/-- Settles O33 (42_encoder.md R135): `OUT[2i]` and `OUT[2i+1]` are the output words whose data bits are the upper
and the lower half of `IN[i]`. -/
theorem encodeWordFormForEvenWidth : Obligations.EncodeWordFormForEvenWidth := by
  intro s hW hcap
  have h := encodeError_eq_none hcap
  refine ⟨runEncode s, exec_eq .encode s, fun i hi => ?_⟩
  have hupper : 2 * i < 2 * s.len := by omega
  have hlower : 2 * i + 1 < 2 * s.len := by omega
  refine ⟨?entry, runEncode_between_words h hW hlower, fun q hq => ⟨?upper, ?lower, fun hq1 =>
    ⟨runEncode_word_between_symbols h hW hupper hq1, runEncode_word_between_symbols h hW hlower hq1⟩⟩⟩
  case entry =>
    cases i with
    | zero => exact runEncode_first_word h hW hi
    | succ i => exact runEncode_between_words h hW (w := 2 * i + 1) hupper
  case upper =>
    rw [runEncode_word_mid_symbol h hW hupper hq, show 2 * i / 2 = i by omega, dataBitPlace,
      if_pos (by omega)]
  case lower =>
    rw [runEncode_word_mid_symbol h hW hlower hq, show (2 * i + 1) / 2 = i by omega, dataBitPlace,
      if_neg (by omega)]

end Sys2Proof.Machine

/-! PROOFS of the bit-index family (43_bit_index_unit.md section 2): the order laws of the two maps, what `F2WB` and
`WB2F` leave in the registers, and the statements on one command and on one after the other. -/

namespace Sys2Proof.Machine

/-! ### The two maps and the order of flat positions -/

/-- Within one word the order is reversed (43_bit_index_unit.md R152). -/
theorem wb2f_lt_wb2f_same_word {W n n' : Nat} (hn : n < W) (hn' : n' < W) (w : Nat) :
    wb2f W w n < wb2f W w n' ↔ n' < n := by
  simp only [wb2f]; omega

/-- Every position of a word lies before every position of a later word (43_bit_index_unit.md R152). -/
theorem wb2f_lt_wb2f_of_word_lt {W n w w' : Nat} (hn : n < W) (hw : w < w') (n' : Nat) :
    wb2f W w n < wb2f W w' n' := by
  calc wb2f W w n < (w + 1) * W := by rw [wb2f, Nat.succ_mul]; omega
    _ ≤ w' * W := Nat.mul_le_mul_right W hw
    _ ≤ wb2f W w' n' := Nat.le_add_right _ _

/-- Settles O18 (43_bit_index_unit.md R152): the inverse laws; then the order within a word, read through
`WB2F(F2WB(k)) = k`; then the order across words. -/
theorem bitIndexMapsAreInverse : Obligations.BitIndexMapsAreInverse := by
  intro W hW
  refine ⟨wb2f_f2wb hW, fun w n hn => f2wb_wb2f hn w, ?withinWord,
    fun _ _ _ n' hn _ hw => wb2f_lt_wb2f_of_word_lt hn hw n'⟩
  case withinWord =>
    intro k k' hk hword
    rw [← wb2f_f2wb hW k, ← wb2f_f2wb hW k', ← hword] at hk
    exact (wb2f_lt_wb2f_same_word (f2wb_bit_lt hW k) (f2wb_bit_lt hW k') _).mp hk

/-! ### `F2WB`, register by register -/

@[simp] theorem runF2wb_cfg (s : State) : (runF2wb s).cfg = s.cfg := rfl
@[simp] theorem runF2wb_widx (s : State) : (runF2wb s).widx = (f2wb s.cfg.W s.flat).1 := rfl
@[simp] theorem runF2wb_bidx (s : State) :
    (runF2wb s).bidx = BitVec.ofNat 8 (f2wb s.cfg.W s.flat).2 := rfl

/-- The bit index fits the 8 bits of `BIDX`, since `W <= 256` (43_bit_index_unit.md R153). -/
@[simp] theorem runF2wb_bidx_toNat (s : State) : (runF2wb s).bidx.toNat = (f2wb s.cfg.W s.flat).2 := by
  have hbit : (f2wb s.cfg.W s.flat).2 < 2 ^ 8 :=
    Nat.lt_of_lt_of_le (f2wb_bit_lt s.cfg.one_le_W s.flat) s.cfg.W_le_max
  rw [runF2wb_bidx, BitVec.toNat_ofNat, Nat.mod_eq_of_lt hbit]

/-- Settles O21 (43_bit_index_unit.md R153): `BIDX` holds the bit index uncut, and the word index is at most `FLAT`. -/
theorem f2wbWritesWordAndBitIndex : Obligations.F2wbWritesWordAndBitIndex := fun s =>
  ⟨(runF2wb s).bidx, exec_eq_runCommand .f2wb s, runF2wb_bidx_toNat s,
    fun hflat => Nat.lt_of_le_of_lt (Nat.div_le_self _ _) hflat⟩

/-! ### `WB2F`, its success and its two errors -/

/-- Either cause gives the one error code (43_bit_index_unit.md R154). -/
theorem wb2fError_eq_invalidOperand {s : State}
    (h : s.cfg.W ≤ s.bidx.toNat ∨ 2 ^ s.cfg.FW ≤ wb2f s.cfg.W s.widx s.bidx.toNat) :
    wb2fError s = some .invalidOperand := by
  unfold wb2fError
  split_ifs with hbit hfit
  · rfl
  · rfl
  · exact absurd h (not_or.mpr ⟨hbit, hfit⟩)

/-- Settles O22 (43_bit_index_unit.md R154): the check of `WB2F` passes in the first clause and fails in the second. -/
theorem wb2fWritesFlatPositionOrRaises : Obligations.Wb2fWritesFlatPositionOrRaises := by
  intro s k
  constructor
  · intro hbit hfit
    exact congrArg _ (runWb2f_of_none ((wb2fError_none_iff s).mpr ⟨hbit, hfit⟩))
  · intro h
    exact congrArg _ (runWb2f_of_error (wb2fError_eq_invalidOperand h))

/-! ### One command after the other -/

theorem eq_runCommand_of_exec {i : Instr} {s t : State} (h : exec i s = .next t) : t = runCommand i s := by
  rw [exec_eq_runCommand] at h
  exact (Host.Outcome.next.inj h).symm

/-- The position that `WB2F` finds after `F2WB` is `FLAT` itself (43_bit_index_unit.md R156). -/
theorem wb2f_after_runF2wb (s : State) :
    wb2f (runF2wb s).cfg.W (runF2wb s).widx (runF2wb s).bidx.toNat = s.flat := by
  rw [runF2wb_cfg, runF2wb_widx, runF2wb_bidx_toNat, wb2f_f2wb s.cfg.one_le_W]

/-- After `F2WB` the check of `WB2F` passes, if `FLAT` fitted its register. -/
theorem wb2fError_runF2wb {s : State} (hflat : s.flat < 2 ^ s.cfg.FW) : wb2fError (runF2wb s) = none := by
  rw [wb2fError_none_iff, wb2f_after_runF2wb, runF2wb_bidx_toNat]
  exact ⟨f2wb_bit_lt s.cfg.one_le_W s.flat, hflat⟩

/-- The place that `F2WB` finds after a successful `WB2F` is `WIDX` and `BIDX` themselves
(43_bit_index_unit.md R156). -/
theorem f2wb_after_runWb2f {s : State} (h : wb2fError s = none) :
    f2wb (runWb2f s).cfg.W (runWb2f s).flat = (s.widx, s.bidx.toNat) := by
  have hbit := ((wb2fError_none_iff s).mp h).1
  rw [runWb2f_of_none h, finish_cfg, finish_flat, f2wb_wb2f hbit]

/-- Settles O23 (43_bit_index_unit.md R156): in each order the first command leaves what the second one maps back. -/
theorem bitIndexRegistersRoundTrip : Obligations.BitIndexRegistersRoundTrip := by
  constructor
  · intro s t u hflat ht hu
    obtain rfl : t = runF2wb s := eq_runCommand_of_exec ht
    obtain rfl : u = runWb2f (runF2wb s) := eq_runCommand_of_exec hu
    rw [runWb2f_of_none (wb2fError_runF2wb hflat)]
    exact ⟨wb2f_after_runF2wb s, finish_err .ok _⟩
  · intro s t u hbit hfit ht hu
    obtain rfl : t = runWb2f s := eq_runCommand_of_exec ht
    obtain rfl : u = runF2wb (runWb2f s) := eq_runCommand_of_exec hu
    have hplace := f2wb_after_runWb2f ((wb2fError_none_iff s).mpr ⟨hbit, hfit⟩)
    constructor
    · rw [runF2wb_widx, hplace]
    · rw [runF2wb_bidx, hplace, BitVec.ofNat_toNat, BitVec.setWidth_eq]

end Sys2Proof.Machine

/-! PROOFS of the codec-law family (44_codec_laws.md section 2): a stream by flat position and by word, what each
command answers with and without an error, the two commands one after the other, and the laws of the codec. -/

namespace Sys2Proof.Machine

/-! ### Equal streams and equal words (20_memory.md R50) -/

/-- The flat positions below `n * W` lie in the words below `n`. -/
theorem f2wb_word_lt {W k n : Nat} (hW : 1 ≤ W) (hk : k < n * W) : (f2wb W k).1 < n :=
  (Nat.div_lt_iff_lt_mul hW).mpr hk

/-- The bits of the words below `n` lie at the flat positions below `n * W`. -/
theorem wb2f_lt_mul {W w b n : Nat} (hw : w < n) (hb : b < W) : wb2f W w b < n * W := by
  calc wb2f W w b < (w + 1) * W := by rw [wb2f, Nat.succ_mul]; omega
    _ ≤ n * W := Nat.mul_le_mul_right W hw

section Streams

variable {s t : State} {sp tp : Space} (hW : t.cfg.W = s.cfg.W) {n : Nat}
include hW

theorem sameStream_iff_memReadBit_eq :
    SameStream s sp t tp (n * s.cfg.W) ↔
      ∀ w b, w < n → b < s.cfg.W → memReadBit t tp w b = memReadBit s sp w b := by
  constructor
  · intro h w b hw hb
    rw [← readFlat_wb2f t tp w (hW ▸ hb), ← readFlat_wb2f s sp w hb, hW]
    exact h _ (wb2f_lt_mul hw hb)
  · intro h k hk
    rw [readFlat, readFlat, hW]
    exact h _ _ (f2wb_word_lt s.cfg.one_le_W hk) (f2wb_bit_lt s.cfg.one_le_W k)

theorem memRead_eq_iff_memReadBit_eq (w : Nat) :
    memRead t tp w = memRead s sp w ↔ ∀ b, b < s.cfg.W → memReadBit t tp w b = memReadBit s sp w b := by
  constructor
  · intro h b hb
    have hbit := congrArg (Nat.testBit · b) h
    simpa [testBit_memRead, hW, hb] using hbit
  · intro h
    refine Nat.eq_of_testBit_eq fun b => ?_
    rw [testBit_memRead, testBit_memRead, hW]
    by_cases hb : b < s.cfg.W
    · rw [h b hb]
    · simp [hb]

/-- In words of one width two streams are equal when they are so word for word. -/
theorem sameStream_iff_memRead_eq :
    SameStream s sp t tp (n * s.cfg.W) ↔ ∀ w, w < n → memRead t tp w = memRead s sp w := by
  simp only [sameStream_iff_memReadBit_eq hW, memRead_eq_iff_memReadBit_eq hW]
  exact ⟨fun h w hw b hb => h w b hw hb, fun h w b hw hb => h w hw b hb⟩

end Streams

/-! ### The result of a command says whether its checks passed -/

theorem eq_runDecode_of_exec {s t : State} (h : exec .decode s = .next t) : t = runDecode s :=
  eq_runCommand_of_exec h

theorem decodeError_eq_none_of_err {s : State} (hok : (runDecode s).err = .ok) : decodeError s = none := by
  cases h : decodeError s with
  | none => rfl
  | some e =>
    rw [runDecode_of_error h, finish_err] at hok
    subst hok
    unfold decodeError at h
    split_ifs at h <;> simp at h

theorem encodeError_eq_none_of_err {s : State} (hok : (runEncode s).err = .ok) : encodeError s = none := by
  cases h : encodeError s with
  | none => rfl
  | some e =>
    rw [runEncode_of_error h, finish_err] at hok
    subst hok
    unfold encodeError at h
    split_ifs at h
    simp at h

theorem runDecode_status (s : State) :
    (runDecode s).status = statusWord false ((decodeError s).getD .ok) := by
  cases h : decodeError s with
  | some e => rw [runDecode_of_error h, finish_status, Option.getD_some]
  | none => rw [runDecode_of_none h, finish_status, Option.getD_none]

theorem runEncode_status (s : State) :
    (runEncode s).status = statusWord false ((encodeError s).getD .ok) := by
  cases h : encodeError s with
  | some e => rw [runEncode_of_error h, finish_status, Option.getD_some]
  | none => rw [runEncode_of_none h, finish_status, Option.getD_none]

theorem encodeError_of_cap_lt {s : State} (hcap : s.cap < 2 * s.len) :
    encodeError s = some .insufficientBuffer :=
  if_pos hcap

/-- The length check comes before the capacity check (60_exceptions.md R197). -/
theorem decodeError_of_cap_lt {s : State} (hcap : s.cap < (s.len + 1) / 2) :
    decodeError s = some (if s.len * s.cfg.W % 2 = 1 then .invalidLength else .insufficientBuffer) := by
  unfold decodeError
  change (if inputBits s % 2 = 1 then _ else _) = some (if inputBits s % 2 = 1 then _ else _)
  by_cases hodd : inputBits s % 2 = 1
  · rw [if_pos hodd, if_pos hodd]
  · rw [if_neg hodd, if_neg hodd, if_pos ((decodeNeed_eq (Nat.mod_two_ne_one.mp hodd)).symm ▸ hcap)]

/-! ### The data stream of a line stream (41_decoder.md R112) -/

/-- Data bit `k` of the line stream in `IN`: whether the level changes in mid-symbol. -/
def dataBit (s : State) (k : Nat) : Bit := pairBit (readFlat s .input (2 * k)) (readFlat s .input (2 * k + 1))

theorem runDecode_data {s : State} (h : decodeError s = none) {k : Nat} (hk : k < decodeBits s) :
    readFlat (runDecode s) .output k = dataBit s k := by
  rw [readFlat_runDecode h, if_pos hk, dataBit]

/-- After a length check that passes, the two halves of every pair lie within the input. -/
theorem two_mul_decodeBits {s : State} (h : decodeError s = none) : 2 * decodeBits s = inputBits s :=
  Nat.mul_div_cancel' (Nat.dvd_of_mod_eq_zero ((decodeError_none_iff s).mp h).1)

/-! What the two streams depend on: the input stream up to the position, and for the line the polarity. -/

theorem dataBit_congr {s s' : State} {n k : Nat} (hin : SameStream s .input s' .input n) (hk : 2 * k + 1 < n) :
    dataBit s' k = dataBit s k := by
  rw [dataBit, dataBit, hin _ (by omega), hin _ hk]

theorem prefixParity_congr {d d' : Nat → Bit} {n : Nat} (h : ∀ j, j < n → d' j = d j) :
    prefixParity d' n = prefixParity d n := by
  induction n with
  | zero => rfl
  | succ n ih => rw [prefixParity, prefixParity, ih fun j hj => h j (by omega), h n (by omega)]

theorem lineBit_congr {s s' : State} {n k : Nat} (hP : s'.cfg.P0 = s.cfg.P0)
    (hin : SameStream s .input s' .input n) (hk : k < 2 * n) : lineBit s' k = lineBit s k := by
  rw [lineBit, lineBit, hP, prefixParity_congr fun j hj => hin j (by omega)]

/-! ### One command after the other (44_codec_laws.md R170, R178) -/

/-- Decoding undoes encoding, symbol by symbol: the level of a line bit cancels. -/
theorem dataBit_of_lineBits {s u : State} {j : Nat} (hfirst : readFlat u .input (2 * j) = lineBit s (2 * j))
    (hsecond : readFlat u .input (2 * j + 1) = lineBit s (2 * j + 1)) : dataBit u j = readFlat s .input j := by
  rw [dataBit, hfirst, hsecond, lineBit_mid_symbol]
  exact pairBit_symbol _ _

/-- The round trip by flat position (44_codec_laws.md R170). -/
theorem sameStream_decode_encode {s u : State} (hs : encodeError s = none) (hu : decodeError u = none)
    (hbits : decodeBits u = inputBits s)
    (hline : SameStream (runEncode s) .output u .input (2 * inputBits s)) :
    SameStream s .input (runDecode u) .output (inputBits s) := by
  intro k hk
  have hlineBit : ∀ i, i < 2 * inputBits s → readFlat u .input i = lineBit s i := fun i hi =>
    (hline i hi).trans (runEncode_line hs hi)
  rw [runDecode_data hu (by omega), dataBit_of_lineBits (hlineBit _ (by omega)) (hlineBit _ (by omega))]

section EncodeOfDecode

variable {s u : State} {n : Nat} (hdata : ∀ j, j < n → readFlat u .input j = dataBit s j)
include hdata

/-- Encoding a data bit whose symbol begins at the right level gives the symbol's other half back. -/
theorem lineBit_second_of_first {j : Nat} (hj : j < n) (hfirst : lineBit u (2 * j) = readFlat s .input (2 * j)) :
    lineBit u (2 * j + 1) = readFlat s .input (2 * j + 1) := by
  rw [lineBit_mid_symbol, hfirst, hdata j hj, dataBit, pairBit]
  exact Bool.bne_self_left _ _

/-- A stream that starts at `P0` and keeps its level between symbols comes back at every symbol's first half. -/
theorem lineBit_first_of_levels (hstart : 0 < n → readFlat s .input 0 = u.cfg.P0)
    (hlevel : ∀ j, 0 < j → j < n → readFlat s .input (2 * j) = readFlat s .input (2 * j - 1)) :
    ∀ j, j < n → lineBit u (2 * j) = readFlat s .input (2 * j)
  | 0, hj => (lineBit_zero u).trans (hstart hj).symm
  | j + 1, hj => by
    have hfirst := lineBit_first_of_levels hstart hlevel j (by omega)
    calc lineBit u (2 * (j + 1)) = lineBit u (2 * j + 1) := lineBit_between_symbols u j
      _ = readFlat s .input (2 * j + 1) := lineBit_second_of_first hdata (by omega) hfirst
      _ = readFlat s .input (2 * (j + 1)) := (hlevel (j + 1) (by omega) hj).symm

/-- The encoder gives exactly the streams that start at `P0` and keep their level between symbols
(44_codec_laws.md R178). -/
theorem lineBit_eq_iff_levels :
    (∀ k, k < 2 * n → lineBit u k = readFlat s .input k) ↔
      (0 < n → readFlat s .input 0 = u.cfg.P0)
        ∧ ∀ j, 0 < j → j < n → readFlat s .input (2 * j) = readFlat s .input (2 * j - 1) := by
  constructor
  · intro h
    refine ⟨fun hn => (h 0 (by omega)).symm.trans (lineBit_zero u), fun j hj hjn => ?_⟩
    obtain ⟨i, rfl⟩ : ∃ i, j = i + 1 := ⟨j - 1, by omega⟩
    rw [← h _ (by omega), lineBit_between_symbols]
    exact h _ (by omega)
  · rintro ⟨hstart, hlevel⟩ k hk
    have hfirst := lineBit_first_of_levels hdata hstart hlevel (k / 2) (by omega)
    obtain hk2 | hk2 : k = 2 * (k / 2) ∨ k = 2 * (k / 2) + 1 := by omega
    · rw [hk2]; exact hfirst
    · rw [hk2]; exact lineBit_second_of_first hdata (by omega) hfirst

end EncodeOfDecode

/-! ### No bit of `OUT` at or above `CAP` (20_memory.md R62, 44_codec_laws.md R175) -/

theorem mul_le_wb2f {W c w : Nat} (hw : c ≤ w) (n : Nat) : c * W ≤ wb2f W w n :=
  (Nat.mul_le_mul_right W hw).trans (Nat.le_add_right _ _)

/-- `ceil(M / W)` words hold `M` bits. -/
theorem decodeBits_le_need (s : State) : decodeBits s ≤ decodeNeed s * s.cfg.W := by
  have hW := s.cfg.one_le_W
  have hceil := Nat.lt_div_mul_add (a := decodeBits s + s.cfg.W - 1) hW
  rw [decodeNeed]
  omega

theorem runDecode_keeps_above_cap {s : State} {w : Nat} (hw : s.cap ≤ w) (n : Nat) :
    memReadBit (runDecode s) .output w n = memReadBit s .output w n := by
  cases h : decodeError s with
  | some e => rw [runDecode_of_error h, memReadBit_output_congr (finish_outMem e s)]
  | none =>
    have hneed : decodeNeed s ≤ w := ((decodeError_none_iff s).mp h).2.trans hw
    have hpast : decodeBits s ≤ wb2f s.cfg.W w n := (decodeBits_le_need s).trans (mul_le_wb2f hneed n)
    rw [memReadBit_runDecode h, if_neg (by omega)]

theorem runEncode_keeps_above_cap {s : State} {w : Nat} (hw : s.cap ≤ w) (n : Nat) :
    memReadBit (runEncode s) .output w n = memReadBit s .output w n := by
  cases h : encodeError s with
  | some e => rw [runEncode_of_error h, memReadBit_output_congr (finish_outMem e s)]
  | none =>
    have hneed : 2 * s.len ≤ w := ((encodeError_none_iff s).mp h).trans hw
    have hpast : 2 * inputBits s ≤ wb2f s.cfg.W w n :=
      (Nat.mul_assoc 2 s.len s.cfg.W).symm.trans_le (mul_le_wb2f hneed n)
    rw [memReadBit_runEncode h, if_neg (by omega)]

/-! The bit-index unit touches no buffer. -/

@[simp] theorem runF2wb_outMem (s : State) : (runF2wb s).outMem = s.outMem := rfl

@[simp] theorem runWb2f_outMem (s : State) : (runWb2f s).outMem = s.outMem := by
  cases h : wb2fError s with
  | some e => rw [runWb2f_of_error h, finish_outMem]
  | none => rw [runWb2f_of_none h, finish_outMem]

theorem runCommand_keeps_above_cap (i : Instr) {s : State} {w : Nat} (hw : s.cap ≤ w) (n : Nat) :
    memReadBit (runCommand i s) .output w n = memReadBit s .output w n := by
  cases i with
  | decode => exact runDecode_keeps_above_cap hw n
  | encode => exact runEncode_keeps_above_cap hw n
  | f2wb => exact memReadBit_output_congr (runF2wb_outMem s) w n
  | wb2f => exact memReadBit_output_congr (runWb2f_outMem s) w n

/-! ### A command as a function of its inputs (44_codec_laws.md R176) -/

theorem SameRegs.symm {s t : State} (h : SameRegs s t) : SameRegs t s := by
  obtain ⟨hcfg, hlen, hcap, hflat, hwidx, hbidx⟩ := h
  exact ⟨hcfg.symm, hlen.symm, hcap.symm, hflat.symm, hwidx.symm, hbidx.symm⟩

theorem SameRegs.trans {s t u : State} (h : SameRegs s t) (h' : SameRegs t u) : SameRegs s u := by
  obtain ⟨hcfg, hlen, hcap, hflat, hwidx, hbidx⟩ := h
  obtain ⟨hcfg', hlen', hcap', hflat', hwidx', hbidx'⟩ := h'
  exact ⟨hcfg'.trans hcfg, hlen'.trans hlen, hcap'.trans hcap, hflat'.trans hflat, hwidx'.trans hwidx,
    hbidx'.trans hbidx⟩

theorem sameRegs_finish (e : ErrCode) (s : State) : SameRegs s (finish e s) := ⟨rfl, rfl, rfl, rfl, rfl, rfl⟩

theorem sameRegs_runDecode (s : State) : SameRegs s (runDecode s) := by
  cases h : decodeError s with
  | some e => exact runDecode_of_error h ▸ sameRegs_finish e s
  | none =>
    rw [runDecode_of_none h]
    exact (decodeLoop_frame (decodeBits s) (decodeStart s)).1

theorem sameRegs_runEncode (s : State) : SameRegs s (runEncode s) := by
  cases h : encodeError s with
  | some e => exact runEncode_of_error h ▸ sameRegs_finish e s
  | none =>
    rw [runEncode_of_none h]
    exact (encodeLoop_frame (inputBits s) (encodeStart s)).1

/-- Two completed commands gave the host the same: registers, `STATUS` and every bit of `OUT`. -/
def SameResult (t t' : State) : Prop :=
  SameRegs t t' ∧ t'.status = t.status ∧ ∀ w n, memReadBit t' .output w n = memReadBit t .output w n

/-- Two completions with one result code. -/
theorem sameResult_finish (e : ErrCode) {t t' : State} (hregs : SameRegs t t')
    (hout : ∀ w n, memReadBit t' .output w n = memReadBit t .output w n) :
    SameResult (finish e t) (finish e t') :=
  ⟨(sameRegs_finish e t).symm.trans (hregs.trans (sameRegs_finish e t')), rfl, hout⟩

section SameInputs

variable {s s' : State} (hregs : SameRegs s s')
include hregs

theorem inputBits_congr : inputBits s' = inputBits s := by
  obtain ⟨hcfg, hlen, -⟩ := hregs
  rw [inputBits, inputBits, hcfg, hlen]

theorem decodeBits_congr : decodeBits s' = decodeBits s := by
  rw [decodeBits, decodeBits, inputBits_congr hregs]

theorem decodeNeed_congr : decodeNeed s' = decodeNeed s := by
  rw [decodeNeed, decodeNeed, decodeBits_congr hregs, hregs.1]

theorem decodeError_congr : decodeError s' = decodeError s := by
  have ⟨_, _, hcap, _⟩ := hregs
  rw [decodeError, decodeError, inputBits_congr hregs, decodeNeed_congr hregs, hcap]

theorem encodeError_congr : encodeError s' = encodeError s := by
  obtain ⟨-, hlen, hcap, -⟩ := hregs
  rw [encodeError, encodeError, encodeNeed, encodeNeed, hlen, hcap]

theorem wb2fError_congr : wb2fError s' = wb2fError s := by
  obtain ⟨hcfg, -, -, -, hwidx, hbidx⟩ := hregs
  simp only [wb2fError, hcfg, hwidx, hbidx]

variable (hout : ∀ w n, memReadBit s' .output w n = memReadBit s .output w n)
include hout

theorem sameResult_runF2wb : SameResult (runF2wb s) (runF2wb s') := by
  obtain ⟨hcfg, hlen, hcap, hflat, -, -⟩ := hregs
  refine sameResult_finish .ok ⟨hcfg, hlen, hcap, hflat, ?_, ?_⟩ hout
  · simp only [hcfg, hflat]
  · simp only [hcfg, hflat]

theorem sameResult_runWb2f : SameResult (runWb2f s) (runWb2f s') := by
  have hcheck := wb2fError_congr hregs
  cases h : wb2fError s with
  | some e =>
    rw [runWb2f_of_error h, runWb2f_of_error (hcheck.trans h)]
    exact sameResult_finish e hregs hout
  | none =>
    rw [runWb2f_of_none h, runWb2f_of_none (hcheck.trans h)]
    obtain ⟨hcfg, hlen, hcap, -, hwidx, hbidx⟩ := hregs
    refine sameResult_finish .ok ⟨hcfg, hlen, hcap, ?_, hwidx, hbidx⟩ hout
    simp only [hcfg, hwidx, hbidx]

variable (hin : SameStream s .input s' .input (inputBits s))
include hin

theorem sameResult_runDecode : SameResult (runDecode s) (runDecode s') := by
  have hcheck := decodeError_congr hregs
  have hregs' := (sameRegs_runDecode s).symm.trans (hregs.trans (sameRegs_runDecode s'))
  refine ⟨hregs', by rw [runDecode_status, runDecode_status, hcheck], fun w n => ?_⟩
  cases h : decodeError s with
  | some e =>
    rw [runDecode_of_error h, runDecode_of_error (hcheck.trans h)]
    exact hout w n
  | none =>
    rw [memReadBit_runDecode h, memReadBit_runDecode (hcheck.trans h), decodeBits_congr hregs, hregs.1, hout]
    refine if_ctx_congr Iff.rfl (fun ⟨_, hk⟩ => ?_) fun _ => rfl
    have hpair : 2 * wb2f s.cfg.W w n + 1 < inputBits s := by rw [← two_mul_decodeBits h]; omega
    exact dataBit_congr hin hpair

theorem sameResult_runEncode : SameResult (runEncode s) (runEncode s') := by
  have hcheck := encodeError_congr hregs
  have hregs' := (sameRegs_runEncode s).symm.trans (hregs.trans (sameRegs_runEncode s'))
  refine ⟨hregs', by rw [runEncode_status, runEncode_status, hcheck], fun w n => ?_⟩
  cases h : encodeError s with
  | some e =>
    rw [runEncode_of_error h, runEncode_of_error (hcheck.trans h)]
    exact hout w n
  | none =>
    rw [memReadBit_runEncode h, memReadBit_runEncode (hcheck.trans h), inputBits_congr hregs, hregs.1, hout]
    refine if_ctx_congr Iff.rfl (fun ⟨_, hk⟩ => ?_) fun _ => rfl
    exact lineBit_congr (congrArg Config.P0 hregs.1) hin hk

end SameInputs

/-! ### A line stream that does not come back (44_codec_laws.md R178, DV-R5) -/

/-- The line stream `0xAA, 0x55` for a `DECODE` at `W = 8`, `P0 = 1`. -/
def noReturnDecode : State :=
  { State.reset with inMem := [(0, wholeWord 8 0xAA), (1, wholeWord 8 0x55)], len := 2, cap := 1 }

/-- Its data word, for an `ENCODE` by the same block. -/
def noReturnEncode : State := { State.reset with inMem := [(0, wholeWord 8 0xFF)], len := 1, cap := 2 }

theorem noReturnDecode_data : memRead (runDecode noReturnDecode) .output 0 = 0xFF := by decide +kernel

theorem noReturnEncode_line :
    memRead (runEncode noReturnEncode) .output 0 = 0x99 ∧ memRead (runEncode noReturnEncode) .output 1 = 0x99 := by
  decide +kernel

/-! ### The obligations -/

/-- Settles O35 (44_codec_laws.md R170): both checks pass, the words given on are the line stream, and the round trip
by flat position is one by word. -/
theorem decodeOfEncodeGivesTheDataBack : Obligations.DecodeOfEncodeGivesTheDataBack := by
  intro s hcap
  have hs := encodeError_eq_none hcap
  refine ⟨runEncode s, exec_eq .encode s, runEncode_err hs, fun u hW hlen hucap hwords => ?_⟩
  have heven : u.len % 2 = 0 := by omega
  have hu : decodeError u = none := decodeError_eq_none ((inputBits_even_iff u).mpr (.inl heven)) (by omega)
  have hbits : decodeBits u = inputBits s := by
    rw [decodeBits_of_even_len heven, hW, show u.len / 2 = s.len by omega, inputBits]
  have hline : SameStream (runEncode s) .output u .input (2 * inputBits s) := by
    rw [inputBits, ← Nat.mul_assoc, ← runEncode_cfg hs]
    exact (sameStream_iff_memRead_eq (by rw [hW, runEncode_cfg hs])).mpr hwords
  refine ⟨runDecode u, exec_eq .decode u, runDecode_err hu, ?_⟩
  exact (sameStream_iff_memRead_eq (by rw [runDecode_cfg hu, hW])).mp (sameStream_decode_encode hs hu hbits hline)

/-- Settles O36 (44_codec_laws.md R171): below the end each flat position holds a data bit or a line bit, which `OUT`
has no part in; from there on the old bit. -/
theorem lengthLaw : Obligations.LengthLaw := by
  intro s t t' m
  constructor
  · intro ht ht' hok
    obtain rfl := eq_runDecode_of_exec ht
    obtain rfl := eq_runDecode_of_exec ht'
    have h := decodeError_eq_none_of_err hok
    have h' : decodeError { s with outMem := m } = none := h
    refine ⟨fun k hk => ?_, fun k hk => ?_, two_mul_decodeBits h⟩
    · exact (runDecode_data h' hk).trans (runDecode_data h hk).symm
    · exact (readFlat_runDecode h k).trans (if_neg (Nat.not_lt.mpr hk))
  · intro ht ht' hok
    obtain rfl := eq_runEncode_of_exec ht
    obtain rfl := eq_runEncode_of_exec ht'
    have h := encodeError_eq_none_of_err hok
    have h' : encodeError { s with outMem := m } = none := h
    refine ⟨fun k hk => ?_, fun k hk => ?_⟩
    · exact (runEncode_line h' hk).trans (runEncode_line h hk).symm
    · exact (readFlat_runEncode h k).trans (if_neg (Nat.not_lt.mpr hk))

/-- Settles O37 (44_codec_laws.md R173): data bits and line bits are functions of the flat input stream. -/
theorem resultsDoNotDependOnWordWidth : Obligations.ResultsDoNotDependOnWordWidth := by
  intro s s' t t' hT hin
  change inputBits s' = inputBits s at hT
  constructor
  · intro ht ht' hok hok' k hk
    obtain rfl := eq_runDecode_of_exec ht
    obtain rfl := eq_runDecode_of_exec ht'
    have h := decodeError_eq_none_of_err hok
    have h' := decodeError_eq_none_of_err hok'
    change k < decodeBits s at hk
    have hk' : k < decodeBits s' := by rwa [decodeBits, hT]
    have hpair : 2 * k + 1 < inputBits s := by rw [← two_mul_decodeBits h]; omega
    rw [runDecode_data h hk, runDecode_data h' hk', dataBit_congr hin hpair]
  · intro hP ht ht' hok hok' k hk
    obtain rfl := eq_runEncode_of_exec ht
    obtain rfl := eq_runEncode_of_exec ht'
    have h := encodeError_eq_none_of_err hok
    have h' := encodeError_eq_none_of_err hok'
    rw [runEncode_line h hk, runEncode_line h' (by rwa [hT]), lineBit_congr hP hin hk]

/-- Settles O38 (44_codec_laws.md R175): the two failed checks, then every command above `CAP`. -/
theorem noCommandWritesPastTheBuffer : Obligations.NoCommandWritesPastTheBuffer := by
  refine ⟨fun s hcap => ?decode, fun s hcap => ?encode, fun i s t ht w n hw => ?above⟩
  case decode =>
    have h := runDecode_of_error (decodeError_of_cap_lt hcap)
    exact ⟨runDecode s, exec_eq .decode s, by rw [h, finish_outMem], by rw [h, finish_err]⟩
  case encode =>
    have h := runEncode_of_error (encodeError_of_cap_lt hcap)
    exact ⟨runEncode s, exec_eq .encode s, by rw [h, finish_outMem], by rw [h, finish_err]⟩
  case above =>
    obtain rfl := eq_runCommand_of_exec ht
    exact runCommand_keeps_above_cap i hw n

/-- Settles O39 (44_codec_laws.md R176): the bits of `IN[0 .. LEN-1]` are the input stream, and each command maps
equal registers, `OUT` and input stream to equal results. -/
theorem commandsAreFunctionsOfTheirInputs : Obligations.CommandsAreFunctionsOfTheirInputs := by
  intro i s s' t t' hregs hin hout ht ht'
  obtain rfl := eq_runCommand_of_exec ht
  obtain rfl := eq_runCommand_of_exec ht'
  have hstream : SameStream s .input s' .input (inputBits s) :=
    (sameStream_iff_memReadBit_eq (congrArg Config.W hregs.1)).mpr hin
  cases i with
  | decode => exact sameResult_runDecode hregs hout hstream
  | encode => exact sameResult_runEncode hregs hout hstream
  | f2wb => exact sameResult_runF2wb hregs hout
  | wb2f => exact sameResult_runWb2f hregs hout

/-- Settles O41 (44_codec_laws.md R178): the re-encoded stream is the stream of line bits of the data, which equals
the first stream under the two conditions; DV-R5 breaks them, and its first word comes back as `0x99`. -/
theorem encodeOfDecodeIsNotALaw : Obligations.EncodeOfDecodeIsNotALaw := by
  constructor
  · intro s t u v ht hok hcfg hbits hdata hv hok'
    obtain rfl := eq_runDecode_of_exec ht
    obtain rfl := eq_runEncode_of_exec hv
    have hs := decodeError_eq_none_of_err hok
    have hu := encodeError_eq_none_of_err hok'
    have hT : inputBits u = u.len * s.cfg.W := by rw [inputBits, hcfg]
    have hM : decodeBits s = inputBits u := by rw [decodeBits, inputBits, ← hbits, hT]; omega
    rw [← hT] at hbits hdata ⊢
    have hdataBit : ∀ j, j < inputBits u → readFlat u .input j = dataBit s j := fun j hj =>
      (hdata j hj).trans (runDecode_data hs (hM ▸ hj))
    have hlen : 0 < s.len ↔ 0 < inputBits u := by
      rw [← Nat.mul_pos_iff_of_pos_right (a := s.len) s.cfg.one_le_W, ← hbits]
      omega
    rw [hlen, ← hbits, ← hcfg, ← lineBit_eq_iff_levels hdataBit]
    exact forall₂_congr fun k hk => by rw [runEncode_line hu hk]
  · have hs : decodeError noReturnDecode = none := by decide
    have hu : encodeError noReturnEncode = none := by decide
    obtain ⟨hline0, hline1⟩ := noReturnEncode_line
    refine ⟨noReturnDecode, runDecode noReturnDecode, noReturnEncode, runEncode noReturnEncode, rfl, rfl, rfl,
      by decide, by decide, exec_eq .decode _, runDecode_err hs, noReturnDecode_data, rfl, rfl, ?data,
      exec_eq .encode _, runEncode_err hu, hline0, hline1, ?noReturn⟩
    case data =>
      have hW : noReturnEncode.cfg.W = (runDecode noReturnDecode).cfg.W := by rw [runDecode_cfg hs]; rfl
      refine (sameStream_iff_memRead_eq hW (n := 1)).mpr fun w hw => ?_
      obtain rfl := Nat.lt_one_iff.mp hw
      rw [noReturnDecode_data]
      decide
    case noReturn =>
      have hW : (runEncode noReturnEncode).cfg.W = noReturnDecode.cfg.W := by rw [runEncode_cfg hu]; rfl
      intro hsame
      have hback := (sameStream_iff_memRead_eq hW (n := 2)).mp hsame 0 (by decide)
      rw [hline0] at hback
      exact absurd hback (by decide)

end Sys2Proof.Machine

/-! PROOFS of the errors family (60_exceptions.md sections 2 to 4): the check a command makes before it touches
anything, what the command answers when that check fails, and its result code. -/

namespace Sys2Proof.Machine

/-! ### The check before a command (60_exceptions.md R195) -/

/-- The error the checks of a command find, none if they all pass; `F2WB` checks nothing. -/
def commandError (i : Instr) (s : State) : Option ErrCode :=
  match i with
  | .decode => decodeError s
  | .encode => encodeError s
  | .f2wb => none
  | .wb2f => wb2fError s

/-- A command whose check fails is nothing but its completion. -/
theorem runCommand_of_error {i : Instr} {s : State} {e : ErrCode} (h : commandError i s = some e) :
    runCommand i s = finish e s := by
  cases i with
  | decode => exact runDecode_of_error h
  | encode => exact runEncode_of_error h
  | f2wb => exact absurd h (Option.some_ne_none e).symm
  | wb2f => exact runWb2f_of_error h

theorem runWb2f_status (s : State) : (runWb2f s).status = statusWord false ((wb2fError s).getD .ok) := by
  cases h : wb2fError s with
  | some e => rw [runWb2f_of_error h, finish_status, Option.getD_some]
  | none => rw [runWb2f_of_none h, finish_status, Option.getD_none]

theorem runCommand_status (i : Instr) (s : State) :
    (runCommand i s).status = statusWord false ((commandError i s).getD .ok) := by
  cases i with
  | decode => exact runDecode_status s
  | encode => exact runEncode_status s
  | f2wb => exact finish_status .ok _
  | wb2f => exact runWb2f_status s

/-! ### The check gives the code of the rules (60_exceptions.md R191 to R193) -/

/-- Length before capacity (60_exceptions.md R197), so `ceil(LEN / 2)` is needed only where it is `ceil(M / W)`. -/
theorem expectedErr_decode (s : State) : expectedErr .decode s = (decodeError s).getD .ok := by
  rw [show expectedErr .decode s = if inputBits s % 2 = 1 then .invalidLength else
    if s.cap < (s.len + 1) / 2 then .insufficientBuffer else .ok from rfl, decodeError]
  by_cases hodd : inputBits s % 2 = 1
  · rw [if_pos hodd, if_pos hodd, Option.getD_some]
  · rw [if_neg hodd, if_neg hodd, decodeNeed_eq (Nat.mod_two_ne_one.mp hodd)]
    split_ifs <;> rfl

theorem expectedErr_encode (s : State) : expectedErr .encode s = (encodeError s).getD .ok := by
  by_cases h : s.cap < 2 * s.len
  · rw [encodeError_of_cap_lt h]
    exact if_pos h
  · rw [encodeError_eq_none (not_lt.mp h)]
    exact if_neg h

theorem expectedErr_wb2f (s : State) : expectedErr .wb2f s = (wb2fError s).getD .ok := by
  by_cases h : s.cfg.W ≤ s.bidx.toNat ∨ 2 ^ s.cfg.FW ≤ wb2f s.cfg.W s.widx s.bidx.toNat
  · rw [wb2fError_eq_invalidOperand h]
    exact if_pos h
  · rw [(wb2fError_none_iff s).mpr (by rwa [not_or, not_le, not_le] at h)]
    exact if_neg h

theorem expectedErr_eq_commandError (i : Instr) (s : State) : expectedErr i s = (commandError i s).getD .ok := by
  cases i with
  | decode => exact expectedErr_decode s
  | encode => exact expectedErr_encode s
  | f2wb => rfl
  | wb2f => exact expectedErr_wb2f s

/-- Where the rules give an error, it is the one the check finds. -/
theorem commandError_eq_some_expectedErr {i : Instr} {s : State} (herr : expectedErr i s ≠ .ok) :
    commandError i s = some (expectedErr i s) := by
  rw [expectedErr_eq_commandError] at herr ⊢
  cases h : commandError i s with
  | some e => rfl
  | none => exact absurd (congrArg (Option.getD · .ok) h) herr

/-- Settles O42 (60_exceptions.md R191 to R193, R197): the final `STATUS` holds the check's result, which is the
rules' code. -/
theorem everyCommandEndsWithItsResultCode : Obligations.EveryCommandEndsWithItsResultCode := by
  intro i s
  have hstatus : (runCommand i s).status = statusWord false (expectedErr i s) := by
    rw [expectedErr_eq_commandError, runCommand_status]
  refine ⟨runCommand i s, exec_eq_runCommand i s, ?_, ?_⟩
  · rw [State.busy, hstatus, statusWord_busy]
  · rw [State.err, hstatus, statusWord_err]

/-- Settles O43 (60_exceptions.md R198): the check that fails comes before everything else the command does. -/
theorem errorsChangeStatusOnly : Obligations.ErrorsChangeStatusOnly := by
  intro i s herr
  rw [exec_eq_runCommand, runCommand_of_error (commandError_eq_some_expectedErr herr)]
  rfl

end Sys2Proof.Machine

/-! PROOFS of the reset and hazards family (70_reset_and_hazards.md R222, R229): what each command does from the reset
values of the registers, and what a register access does on a busy block. -/

namespace Sys2Proof.Machine

/-! ### The registers after a reset (10_state.md R39) -/

@[simp] theorem applyReset_len (s : State) : (applyReset s).len = 0 := rfl
@[simp] theorem applyReset_flat (s : State) : (applyReset s).flat = 0 := rfl
@[simp] theorem applyReset_widx (s : State) : (applyReset s).widx = 0 := rfl
@[simp] theorem applyReset_bidx (s : State) : (applyReset s).bidx = 0#8 := rfl

theorem step_reset {s : State} {rest : List HostAction} (hs : s.script = .reset :: rest) :
    step s = .next (applyReset { s with script := rest }) :=
  step_of_script_cons hs

/-! ### The first flat position and the first word's bit 0 (43_bit_index_unit.md R150, R151) -/

theorem f2wb_zero (W : Nat) : f2wb W 0 = (0, W - 1) := by
  rw [f2wb, Nat.zero_div, Nat.zero_mod, Nat.sub_zero]

theorem wb2f_zero_zero (W : Nat) : wb2f W 0 0 = W - 1 := by
  rw [wb2f, Nat.zero_mul, Nat.zero_add, Nat.sub_zero]

/-- `W - 1` fits `FLAT`, since `W <= 256` and `FLAT` has more than 8 bits (00_scope.md R6, R8). -/
theorem width_sub_one_lt_flat_range (c : Config) : c.W - 1 < 2 ^ c.FW := by
  have hpow : 2 ^ 8 ≤ 2 ^ c.FW := Nat.pow_le_pow_right (by decide) (by rw [Config.FW]; omega)
  have hmax := c.W_le_max
  have hpos := c.one_le_W
  omega

/-! ### The bit-index commands straight after a reset -/

theorem wb2fError_applyReset (s : State) : wb2fError (applyReset s) = none := by
  rw [wb2fError_none_iff, applyReset_widx, applyReset_bidx, BitVec.toNat_zero, wb2f_zero_zero]
  exact ⟨s.cfg.one_le_W, width_sub_one_lt_flat_range s.cfg⟩

theorem runWb2f_applyReset_err (s : State) : (runWb2f (applyReset s)).err = .ok := by
  rw [runWb2f_of_none (wb2fError_applyReset s), finish_err]

theorem runWb2f_applyReset_flat (s : State) : (runWb2f (applyReset s)).flat = s.cfg.W - 1 := by
  rw [runWb2f_of_none (wb2fError_applyReset s), finish_flat]
  exact wb2f_zero_zero s.cfg.W

theorem runF2wb_applyReset_widx (s : State) : (runF2wb (applyReset s)).widx = 0 := by
  rw [runF2wb_widx, applyReset_flat, f2wb_zero]

theorem runF2wb_applyReset_bidx_toNat (s : State) : (runF2wb (applyReset s)).bidx.toNat = s.cfg.W - 1 := by
  rw [runF2wb_bidx_toNat, applyReset_flat, f2wb_zero, applyReset_cfg]

/-! ### A register access on a busy block (70_reset_and_hazards.md R229) -/

/-- In the step-by-step view too, a start on a busy block is no second command. -/
theorem step_start_of_busy {s : State} {v : Nat} {rest : List HostAction} (hs : s.script = .start v :: rest)
    (hb : s.busy = true) : step s = .next { s with script := rest } :=
  (step_of_script_cons hs).trans (congrArg Host.Outcome.next (if_pos hb))

/-! ### The obligations -/

/-- Settles O15 (70_reset_and_hazards.md R222): the reset leaves `LEN = 0`, so neither codec command has a position to
pass; the bit-index commands start from the zeros of `FLAT`, `WIDX` and `BIDX`. -/
theorem commandsStraightAfterReset : Obligations.CommandsStraightAfterReset := by
  intro s rest hs
  refine ⟨applyReset { s with script := rest }, step_reset hs, ?decode, ?encode, ?f2wb, ?wb2f⟩
  case decode =>
    refine ⟨_, exec_eq_runCommand .decode _, ?_⟩
    rw [runCommand, runDecode_of_len_zero (applyReset_len _)]
    exact ⟨finish_err .ok _, rfl, rfl⟩
  case encode =>
    refine ⟨_, exec_eq_runCommand .encode _, ?_⟩
    rw [runCommand, runEncode_of_len_zero (applyReset_len _)]
    exact ⟨finish_err .ok _, rfl, rfl⟩
  case f2wb =>
    exact ⟨_, exec_eq_runCommand .f2wb _, finish_err .ok _, runF2wb_applyReset_widx _,
      runF2wb_applyReset_bidx_toNat _⟩
  case wb2f =>
    exact ⟨_, exec_eq_runCommand .wb2f _, runWb2f_applyReset_err _, runWb2f_applyReset_flat _⟩

/-- Settles O8 (70_reset_and_hazards.md R229): the write of either view on a busy block, and the read, which does not
look at `BUSY`. -/
theorem writesWhileBusyAreIgnored : Obligations.WritesWhileBusyAreIgnored := by
  intro s r v rest hb
  exact ⟨fun hs => step_write_of_busy hs hb, fun hs => step_start_of_busy hs hb, fun hs => ⟨_, step_read hs⟩⟩

end Sys2Proof.Machine

/-! PROOFS of what every command and every internal step keeps: a command as its check and its body,
what no command and no internal step changes, and the frames of `DECODE` and `ENCODE` (10_state.md section 10). -/

namespace Sys2Proof.Machine

/-! ### A command is its check, then its body, then its completion (30_encoding.md R84) -/

/-- What a command whose check has passed does before its completion. -/
def commandBody (i : Instr) (s : State) : State :=
  match i with
  | .decode => decodePosition^[decodeBits s] (decodeStart s)
  | .encode => encodePosition^[inputBits s] (encodeStart s)
  | .f2wb => { s with widx := (f2wb s.cfg.W s.flat).1, bidx := BitVec.ofNat 8 (f2wb s.cfg.W s.flat).2 }
  | .wb2f => { s with flat := wb2f s.cfg.W s.widx s.bidx.toNat }

theorem runCommand_of_none {i : Instr} {s : State} (h : commandError i s = none) :
    runCommand i s = finish .ok (commandBody i s) := by
  cases i with
  | decode => exact runDecode_of_none h
  | encode => exact runEncode_of_none h
  | f2wb => rfl
  | wb2f => exact runWb2f_of_none h

theorem runCommand_cases (i : Instr) (s : State) :
    (∃ e, commandError i s = some e ∧ runCommand i s = finish e s)
      ∨ (commandError i s = none ∧ runCommand i s = finish .ok (commandBody i s)) := by
  cases h : commandError i s with
  | some e => exact .inl ⟨e, rfl, runCommand_of_error h⟩
  | none => exact .inr ⟨rfl, runCommand_of_none h⟩

theorem isIdle_finish (e : ErrCode) (s : State) : (finish e s).isIdle := ⟨finish_busy e s, rfl⟩

theorem isIdle_runCommand (i : Instr) (s : State) : (runCommand i s).isIdle := by
  obtain ⟨e, -, h⟩ | ⟨-, h⟩ := runCommand_cases i s
  · exact h ▸ isIdle_finish e s
  · exact h ▸ isIdle_finish .ok _

/-! ### What no command and no internal step changes -/

/-- The parameters, `LEN`, `CAP`, `IN` and the host's side are the same in both states. -/
structure SameContext (s t : State) : Prop where
  cfg : t.cfg = s.cfg
  len : t.len = s.len
  cap : t.cap = s.cap
  inMem : t.inMem = s.inMem
  hostSide : SameHostSide s t

theorem SameContext.refl (s : State) : SameContext s s := ⟨rfl, rfl, rfl, rfl, rfl, rfl, rfl⟩

theorem sameContext_commandBody (i : Instr) (s : State) : SameContext s (commandBody i s) := by
  cases i with
  | decode =>
    obtain ⟨⟨hcfg, hlen, hcap, -⟩, hhost, -, -, hin, -⟩ := decodeLoop_frame (decodeBits s) (decodeStart s)
    exact ⟨hcfg, hlen, hcap, hin, hhost⟩
  | encode =>
    obtain ⟨⟨hcfg, hlen, hcap, -⟩, hhost, -, hin, -⟩ := encodeLoop_frame (inputBits s) (encodeStart s)
    exact ⟨hcfg, hlen, hcap, hin, hhost⟩
  | f2wb | wb2f => exact ⟨rfl, rfl, rfl, rfl, rfl, rfl, rfl⟩

theorem SameContext.finish {s t : State} (h : SameContext s t) (e : ErrCode) : SameContext s (finish e t) :=
  ⟨h.cfg, h.len, h.cap, h.inMem, h.hostSide⟩

theorem sameContext_runCommand (i : Instr) (s : State) : SameContext s (runCommand i s) := by
  obtain ⟨e, -, h⟩ | ⟨-, h⟩ := runCommand_cases i s
  · exact h ▸ (SameContext.refl s).finish e
  · exact h ▸ (sameContext_commandBody i s).finish .ok

theorem sameContext_tick (s : State) : SameContext s (tick s) := by
  obtain ⟨-, h⟩ | ⟨e, -, h⟩ | ⟨-, -, h⟩ | ⟨-, -, h⟩ | ⟨i, -, -, h⟩ | ⟨-, -, h⟩ | ⟨-, -, h⟩ := tick_cases s <;> rw [h]
  case inr.inr.inr.inr.inl => exact sameContext_runCommand i s
  all_goals exact ⟨rfl, rfl, rfl, rfl, rfl, rfl, rfl⟩

/-- An internal step either completes the command in progress or leaves every register and `STATUS`
(70_reset_and_hazards.md R230). -/
theorem tick_completes_or_keeps_registers (s : State) :
    (s.activity ≠ .idle ∧ (tick s).isIdle) ∨ (SameRegs s (tick s) ∧ (tick s).status = s.status) := by
  obtain ⟨-, h⟩ | ⟨e, ha, h⟩ | ⟨-, -, h⟩ | ⟨-, -, h⟩ | ⟨i, ha, -, h⟩ | ⟨-, -, h⟩ | ⟨-, -, h⟩ := tick_cases s <;> rw [h]
  case inr.inl => exact .inl ⟨ha, isIdle_finish e s⟩
  case inr.inr.inr.inr.inl => exact .inl ⟨by simp [ha], isIdle_runCommand i s⟩
  all_goals exact .inr ⟨⟨rfl, rfl, rfl, rfl, rfl, rfl⟩, rfl⟩

/-! ### The frames of `DECODE` and `ENCODE` -/

theorem runDecode_pol (s : State) : (runDecode s).pol = s.pol := by
  cases h : decodeError s with
  | some e => rw [runDecode_of_error h, finish_pol]
  | none =>
    obtain ⟨-, -, -, hpol, -⟩ := decodeLoop_frame (decodeBits s) (decodeStart s)
    rw [runDecode_of_none h, finish_pol, hpol, decodeStart_pol]

/-- A bit that is the place of no position below `n` is no bit of a word, or lies from `n` on. -/
theorem not_written_of_no_place {W n i b : Nat} (h : ∀ k, k < n → f2wb W k ≠ (i, b)) :
    ¬ (b < W ∧ wb2f W i b < n) :=
  fun ⟨hb, hk⟩ => h _ hk (f2wb_wb2f hb i)

/-- Settles O26 (10_state.md section 10): the frame common to all commands, then the bits of `OUT`. -/
theorem decodeFrame : Obligations.DecodeFrame := by
  intro s t ht
  obtain rfl := eq_runDecode_of_exec ht
  have hcontext : SameContext s (runDecode s) := sameContext_runCommand .decode s
  refine ⟨sameRegs_runDecode s, hcontext.hostSide, runDecode_pol s, hcontext.inMem, isIdle_runCommand .decode s,
    fun i n hplace => ?_⟩
  cases h : decodeError s with
  | some e => rw [runDecode_of_error h, memReadBit_output_congr (finish_outMem e s)]
  | none => exact (memReadBit_runDecode h i n).trans (if_neg (not_written_of_no_place hplace))

/-- Settles O30 (10_state.md section 10): as for `DECODE`, without `POL`. -/
theorem encodeFrame : Obligations.EncodeFrame := by
  intro s t ht
  obtain rfl := eq_runEncode_of_exec ht
  have hcontext : SameContext s (runEncode s) := sameContext_runCommand .encode s
  refine ⟨sameRegs_runEncode s, hcontext.hostSide, hcontext.inMem, isIdle_runCommand .encode s,
    fun i n hplace => ?_⟩
  cases h : encodeError s with
  | some e => rw [runEncode_of_error h, memReadBit_output_congr (finish_outMem e s)]
  | none => exact (memReadBit_runEncode h i n).trans (if_neg (not_written_of_no_place hplace))

/-! ### Polarity and repetition -/

theorem pairBit_not_not (a b : Bit) : pairBit (!a) (!b) = pairBit a b := Bool.not_bne_not a b

/-- Settles O40 (44_codec_laws.md R177): a data bit is the difference of its pair, where the two complements cancel. -/
theorem decodeIgnoresPolarity : Obligations.DecodeIgnoresPolarity := by
  intro s s' t t' hW hlen hin ht ht' hok hok' k hk
  obtain rfl := eq_runDecode_of_exec ht
  obtain rfl := eq_runDecode_of_exec ht'
  have h := decodeError_eq_none_of_err hok
  have h' := decodeError_eq_none_of_err hok'
  change k < decodeBits s at hk
  have hk' : k < decodeBits s' := by rwa [decodeBits, inputBits, hW, hlen]
  have hpair : 2 * k + 1 < inputBits s := by rw [← two_mul_decodeBits h]; omega
  rw [runDecode_data h hk, runDecode_data h' hk', dataBit, dataBit, hin _ hpair,
    hin _ (Nat.lt_of_succ_lt hpair), pairBit_not_not]

/-- The check of a command looks at nothing the command changes. -/
theorem commandError_runCommand (i : Instr) (s : State) : commandError i (runCommand i s) = commandError i s := by
  cases i with
  | decode => exact decodeError_congr (sameRegs_runDecode s)
  | encode => exact encodeError_congr (sameRegs_runEncode s)
  | f2wb => rfl
  | wb2f =>
    obtain ⟨e, -, h⟩ | ⟨-, h⟩ := runCommand_cases .wb2f s <;> rw [h] <;> rfl

theorem memReadBit_runDecode_twice {s : State} (h : decodeError s = none) (w n : Nat) :
    memReadBit (runDecode (runDecode s)) .output w n = memReadBit (runDecode s) .output w n := by
  have hregs := sameRegs_runDecode s
  have hcheck : decodeError (runDecode s) = none := (decodeError_congr hregs).trans h
  have hin : ∀ k, readFlat (runDecode s) .input k = readFlat s .input k :=
    readFlat_input_congr hregs.1 (runDecode_inMem h)
  rw [memReadBit_runDecode hcheck, decodeBits_congr hregs, hregs.1, hin, hin]
  exact ite_eq_right_iff.mpr fun hplace => ((memReadBit_runDecode h w n).trans (if_pos hplace)).symm

theorem memReadBit_runEncode_twice {s : State} (h : encodeError s = none) (w n : Nat) :
    memReadBit (runEncode (runEncode s)) .output w n = memReadBit (runEncode s) .output w n := by
  have hregs := sameRegs_runEncode s
  have hcheck : encodeError (runEncode s) = none := (encodeError_congr hregs).trans h
  have hline : ∀ k, lineBit (runEncode s) k = lineBit s k := fun k =>
    lineBit_congr (congrArg Config.P0 hregs.1) (fun j _ => readFlat_input_congr hregs.1 (runEncode_inMem h) j)
      (n := k + 1) (by omega)
  rw [memReadBit_runEncode hcheck, inputBits_congr hregs, hregs.1, hline]
  exact ite_eq_right_iff.mpr fun hplace => ((memReadBit_runEncode h w n).trans (if_pos hplace)).symm

/-- What a successful command wrote, the same command writes again: its input is still there (20_memory.md section 3). -/
theorem sameResult_runCommand_twice {i : Instr} {s : State} (h : commandError i s = none) :
    SameResult (runCommand i s) (runCommand i (runCommand i s)) := by
  refine ⟨?regs, by rw [runCommand_status, runCommand_status, commandError_runCommand], ?out⟩
  case regs =>
    cases i with
    | decode => exact sameRegs_runDecode _
    | encode => exact sameRegs_runEncode _
    | f2wb => exact ⟨rfl, rfl, rfl, rfl, rfl, rfl⟩
    | wb2f =>
      rw [runCommand_of_none ((commandError_runCommand .wb2f s).trans h), runCommand_of_none h]
      exact ⟨rfl, rfl, rfl, rfl, rfl, rfl⟩
  case out =>
    cases i with
    | decode => exact memReadBit_runDecode_twice h
    | encode => exact memReadBit_runEncode_twice h
    | f2wb => exact memReadBit_output_congr (runF2wb_outMem _)
    | wb2f => exact memReadBit_output_congr (runWb2f_outMem _)

/-- Settles O44 (60_exceptions.md section 4, 20_memory.md section 3): the check finds the same after the command; a failed
command is only its completion, which done twice is done once. -/
theorem repeatingACommandChangesNothing : Obligations.RepeatingACommandChangesNothing := by
  intro i s t ht
  obtain rfl := eq_runCommand_of_exec ht
  rw [exec_eq_runCommand]
  obtain ⟨e, hcheck, hrun⟩ | ⟨hcheck, hrun⟩ := runCommand_cases i s
  · have hagain : runCommand i (runCommand i s) = runCommand i s := by
      rw [runCommand_of_error ((commandError_runCommand i s).trans hcheck), hrun]
      rfl
    rw [hagain]
    exact ⟨fun _ => rfl, fun _ => ⟨_, rfl, rfl, ⟨rfl, rfl, rfl, rfl, rfl, rfl⟩, fun _ _ => rfl⟩⟩
  · obtain ⟨hregs, hstatus, hout⟩ := sameResult_runCommand_twice hcheck
    have hok : (runCommand i s).err = .ok := by rw [hrun, finish_err]
    exact ⟨fun hne => absurd hok hne, fun _ => ⟨_, rfl, hstatus, hregs, hout⟩⟩

end Sys2Proof.Machine
/-! PROOFS of the invariant: the widths and the canonical form of
the memories (10_state.md R21, 00_scope.md R8), and the invariant `Legal`. -/

namespace Sys2Proof.Machine

/-! ### `BUSY` and `ERR`, read off `STATUS` -/

theorem busy_of_status {s t : State} (h : t.status = s.status) : t.busy = s.busy := by rw [State.busy, h]; rfl

theorem err_of_status {s t : State} (h : t.status = s.status) : t.err = s.err := by rw [State.err, h]; rfl

theorem busy_of_status_zero {s : State} (h : s.status = 0) : s.busy = false := by rw [State.busy, h]; rfl

theorem err_of_status_zero {s : State} (h : s.status = 0) : s.err = .ok := by rw [State.err, h]; rfl

/-! ### Widths and memories -/

/-- The part of `Legal` that says nothing of the command in progress. -/
structure DataFits (s : State) : Prop where
  len_fits  : s.len < 2 ^ s.cfg.IW
  cap_fits  : s.cap < 2 ^ s.cfg.CW
  flat_fits : s.flat < 2 ^ s.cfg.FW
  widx_fits : s.widx < 2 ^ s.cfg.FW
  j_fits    : s.j < 2 ^ s.cfg.FW
  input_wf  : Memory.wf s.cfg.W s.inMem
  output_wf : Memory.wf s.cfg.W s.outMem

theorem Legal.dataFits {s : State} (h : Legal s) : DataFits s :=
  ⟨h.len_fits, h.cap_fits, h.flat_fits, h.widx_fits, h.j_fits, h.input_wf, h.output_wf⟩

theorem DataFits.legal_of_idle {s : State} (h : DataFits s) (hidle : s.isIdle) : Legal s := by
  obtain ⟨hbusy, hact⟩ := hidle
  exact { h with
    busy_active := by simp [hbusy, hact]
    decoding := by simp [hact]
    encoding := by simp [hact] }

theorem trunc_lt (n v : Nat) : trunc n v < 2 ^ n := Nat.mod_lt _ (Nat.two_pow_pos n)

/-- `FW = IW + 9` holds twice the bits of the longest input, since `W <= 2^8` (00_scope.md R8). -/
theorem two_mul_inputBits_lt {s : State} (hlen : s.len < 2 ^ s.cfg.IW) : 2 * inputBits s < 2 ^ s.cfg.FW := by
  have hbits : s.len * s.cfg.W < 2 ^ s.cfg.IW * 2 ^ 8 :=
    Nat.mul_lt_mul_of_lt_of_le hlen s.cfg.W_le_max (by decide)
  calc 2 * inputBits s < 2 * (2 ^ s.cfg.IW * 2 ^ 8) := Nat.mul_lt_mul_of_pos_left hbits (by decide)
    _ = 2 ^ s.cfg.FW := by rw [Config.FW]; ring

/-- Settles O20 (00_scope.md sections 4 and 6): the bound on `LEN`, carried to its multiples. -/
theorem noCommandArithmeticWraps : Obligations.NoCommandArithmeticWraps := by
  intro s h
  have hlen := h.len_fits
  have hCW : 2 ^ s.cfg.CW = 2 * 2 ^ s.cfg.IW := by rw [Config.CW]; ring
  exact ⟨two_mul_inputBits_lt hlen, by omega, by omega⟩

namespace DataFits

variable {s : State} (h : DataFits s)
include h

theorem regWrite (r : Reg) (v : Nat) : DataFits (regWrite s r v) := by
  cases r with
  | cmd | status | bidx | reserved => exact { h with }
  | len => exact { h with len_fits := trunc_lt _ v }
  | cap => exact { h with cap_fits := trunc_lt _ v }
  | flat => exact { h with flat_fits := trunc_lt _ v }
  | widx => exact { h with widx_fits := trunc_lt _ v }

theorem storeInWord (i : Nat) {v : Word} (hv : v < 2 ^ s.cfg.W) : DataFits (storeInWord s i v) :=
  { h with input_wf := writeWord_wf s.cfg.one_le_W h.input_wf i hv }

theorem storeOutWord (i : Nat) {v : Word} (hv : v < 2 ^ s.cfg.W) : DataFits (storeOutWord s i v) :=
  { h with output_wf := writeWord_wf s.cfg.one_le_W h.output_wf i hv }

theorem writeFlat (k : Nat) (v : Bit) : DataFits (writeFlat s k v) :=
  { h with output_wf := writeBit_wf h.output_wf _ (f2wb_bit_lt s.cfg.one_le_W k) v }

theorem decodePosition (hj : s.j + 1 < 2 ^ s.cfg.FW) : DataFits (decodePosition s) :=
  { h.writeFlat s.j _ with j_fits := hj }

theorem encodePosition (hj : s.j + 1 < 2 ^ s.cfg.FW) : DataFits (encodePosition s) :=
  { (h.writeFlat (2 * s.j) _).writeFlat (2 * s.j + 1) _ with j_fits := hj }

theorem decodeStart : DataFits (decodeStart s) := { h with j_fits := Nat.two_pow_pos _ }

theorem encodeStart : DataFits (encodeStart s) := { h with j_fits := Nat.two_pow_pos _ }

theorem decodeLoop (n : Nat) (hj : s.j + n < 2 ^ s.cfg.FW) : DataFits (Machine.decodePosition^[n] s) := by
  induction n with
  | zero => exact h
  | succ n ih =>
    obtain ⟨⟨hcfg, -⟩, -, -, -, -, -, hjn⟩ := decodeLoop_frame n s
    rw [Function.iterate_succ_apply']
    exact (ih (by omega)).decodePosition (by rw [hcfg, hjn]; exact hj)

theorem encodeLoop (n : Nat) (hj : s.j + n < 2 ^ s.cfg.FW) : DataFits (Machine.encodePosition^[n] s) := by
  induction n with
  | zero => exact h
  | succ n ih =>
    obtain ⟨⟨hcfg, -⟩, -, -, -, -, hjn, -⟩ := encodeLoop_frame n s
    rw [Function.iterate_succ_apply']
    exact (ih (by omega)).encodePosition (by rw [hcfg, hjn]; exact hj)

theorem finish (e : ErrCode) : DataFits (finish e s) := { h with }

theorem inputBits_lt : inputBits s < 2 ^ s.cfg.FW := by
  have := two_mul_inputBits_lt h.len_fits
  omega

theorem decodeBits_lt : decodeBits s < 2 ^ s.cfg.FW :=
  (Nat.div_le_self _ 2).trans_lt h.inputBits_lt

theorem commandBody {i : Instr} (hcheck : commandError i s = none) : DataFits (commandBody i s) := by
  cases i with
  | decode => exact h.decodeStart.decodeLoop _ (by rw [decodeStart_j, Nat.zero_add]; exact h.decodeBits_lt)
  | encode => exact h.encodeStart.encodeLoop _ (by rw [encodeStart_j, Nat.zero_add]; exact h.inputBits_lt)
  | f2wb => exact { h with widx_fits := (Nat.div_le_self _ _).trans_lt h.flat_fits }
  | wb2f => exact { h with flat_fits := ((wb2fError_none_iff s).mp hcheck).2 }

theorem runCommand (i : Instr) : DataFits (runCommand i s) := by
  obtain ⟨e, -, hrun⟩ | ⟨hcheck, hrun⟩ := runCommand_cases i s
  · exact hrun ▸ h.finish e
  · exact hrun ▸ (h.commandBody hcheck).finish .ok

theorem outAfterReset_wf : Memory.wf s.cfg.W (outAfterReset s) := by
  unfold outAfterReset
  split
  · exact fill_wf s.cfg.one_le_W h.output_wf _ (fun i => trunc_lt _ _) _
  · exact h.output_wf

theorem applyReset : DataFits (applyReset s) where
  len_fits := Nat.two_pow_pos _
  cap_fits := Nat.two_pow_pos _
  flat_fits := Nat.two_pow_pos _
  widx_fits := Nat.two_pow_pos _
  j_fits := trunc_lt _ _
  input_wf := h.input_wf
  output_wf := h.outAfterReset_wf

end DataFits

theorem isIdle_applyReset (s : State) : (applyReset s).isIdle := ⟨busy_of_status_zero rfl, rfl⟩

theorem isIdle_afterReset (c : Config) (pol : Bit) (j : Nat) (mi mo : Memory) :
    (State.afterReset c pol j mi mo).isIdle := ⟨busy_of_status_zero rfl, rfl⟩

/-- Settles O12 (10_state.md R39): zeros fit every width and the block is idle; `State.reset` is one such state. -/
theorem resetStateIsLegal : Obligations.ResetStateIsLegal := by
  have hafter (c : Config) (pol : Bit) (j : Nat) (mi mo : Memory) (hj : j < 2 ^ c.FW) (hmi : Memory.wf c.W mi)
      (hmo : Memory.wf c.W mo) : Legal (State.afterReset c pol j mi mo) := by
    have hdata : DataFits (State.afterReset c pol j mi mo) :=
      ⟨Nat.two_pow_pos _, Nat.two_pow_pos _, Nat.two_pow_pos _, Nat.two_pow_pos _, hj, hmi, hmo⟩
    exact hdata.legal_of_idle (isIdle_afterReset c pol j mi mo)
  exact ⟨hafter _ _ _ _ _ (Nat.two_pow_pos _) (reset_memory_wf .input) (reset_memory_wf .output), hafter⟩

/-! ### The invariant, operation by operation -/

namespace Legal

variable {s : State} (h : Legal s)
include h

theorem withHostSide (script : List HostAction) (noted : List Nat) (free : Nat) :
    Legal { s with script := script, noted := noted, free := free } :=
  { h with }

theorem note (v : Nat) : Legal (note v s) := h.withHostSide _ _ _

theorem isIdle_of_not_busy (hb : s.busy = false) : s.isIdle := by
  refine ⟨hb, by_contra fun hact => ?_⟩
  rw [h.busy_active.mpr hact] at hb
  exact Bool.noConfusion hb

theorem accept (op : Instr) : Legal (accept op s) :=
  { h.dataFits with
    busy_active := by simp
    decoding := by simp
    encoding := by simp }

/-- A register write happens on an idle block only, so it takes no check back that a command has passed. -/
theorem regWrite (hb : s.busy = false) (r : Reg) (v : Nat) : Legal (regWrite s r v) := by
  obtain ⟨-, hstatus, -, -, -, -, hact, -⟩ := regWrite_frame s r v
  obtain ⟨-, hidle⟩ := h.isIdle_of_not_busy hb
  exact (h.dataFits.regWrite r v).legal_of_idle ⟨(busy_of_status hstatus).trans hb, hact.trans hidle⟩

theorem storeInWord (i : Nat) {v : Word} (hv : v < 2 ^ s.cfg.W) : Legal (storeInWord s i v) :=
  { h.dataFits.storeInWord i hv with
    busy_active := h.busy_active, decoding := h.decoding, encoding := h.encoding }

theorem storeOutWord (i : Nat) {v : Word} (hv : v < 2 ^ s.cfg.W) : Legal (storeOutWord s i v) :=
  { h.dataFits.storeOutWord i hv with
    busy_active := h.busy_active, decoding := h.decoding, encoding := h.encoding }

theorem busy_of_active (hact : s.activity ≠ .idle) : s.busy = true := h.busy_active.mpr hact

theorem decodeStart (hact : s.activity = .accepted .decode) (hcheck : decodeError s = none) :
    Legal { decodeStart s with activity := .decoding } :=
  { h.dataFits.decodeStart with
    busy_active := iff_of_true (h.busy_of_active (by simp [hact])) (by simp)
    decoding := fun _ => ⟨hcheck, Nat.zero_le _⟩
    encoding := by simp }

theorem encodeStart (hact : s.activity = .accepted .encode) (hcheck : encodeError s = none) :
    Legal { encodeStart s with activity := .encoding } :=
  { h.dataFits.encodeStart with
    busy_active := iff_of_true (h.busy_of_active (by simp [hact])) (by simp)
    decoding := by simp
    encoding := fun _ => ⟨hcheck, Nat.zero_le _⟩ }

theorem decodePosition (hact : s.activity = .decoding) (hj : s.j < decodeBits s) : Legal (decodePosition s) :=
  { h.dataFits.decodePosition (lt_of_le_of_lt hj h.dataFits.decodeBits_lt) with
    busy_active := h.busy_active
    decoding := fun _ => ⟨(h.decoding hact).1, hj⟩
    encoding := by simp [hact] }

theorem encodePosition (hact : s.activity = .encoding) (hj : s.j < inputBits s) : Legal (encodePosition s) :=
  { h.dataFits.encodePosition (lt_of_le_of_lt hj h.dataFits.inputBits_lt) with
    busy_active := h.busy_active
    decoding := by simp [hact]
    encoding := fun _ => ⟨(h.encoding hact).1, hj⟩ }

theorem runCommand (i : Instr) : Legal (runCommand i s) :=
  (h.dataFits.runCommand i).legal_of_idle (isIdle_runCommand i s)

theorem tick : Legal (tick s) := by
  obtain ⟨-, ht⟩ | ⟨e, -, ht⟩ | ⟨hact, hcheck, ht⟩ | ⟨hact, hcheck, ht⟩ | ⟨i, -, -, ht⟩ | ⟨hact, hj, ht⟩ |
    ⟨hact, hj, ht⟩ := tick_cases s <;> rw [ht]
  · exact h
  · exact (h.dataFits.finish e).legal_of_idle (isIdle_finish e s)
  · exact h.decodeStart hact hcheck
  · exact h.encodeStart hact hcheck
  · exact h.runCommand i
  · exact h.decodePosition hact hj
  · exact h.encodePosition hact hj

theorem applyReset : Legal (applyReset s) := h.dataFits.applyReset.legal_of_idle (isIdle_applyReset s)

theorem hostStep {a : HostAction} {t : State} (hstep : hostStep a s = .next t) : Legal t := by
  obtain ⟨_, _, -, -, rfl⟩ | ⟨_, -, -, rfl⟩ | ⟨_, _, -, -, hb, rfl⟩ | ⟨_, -, rfl⟩ | ⟨_, _, -, -, hv, rfl⟩ |
    ⟨_, _, -, -, hv, rfl⟩ | ⟨_, -, -, rfl⟩ | ⟨-, -, rfl⟩ | ⟨-, -, rfl⟩ | ⟨-, rfl⟩ | ⟨_, -, -, rfl⟩ |
    ⟨_, -, -, rfl⟩ | ⟨-, rfl⟩ := hostStep_cases hstep
  · exact h
  · exact h.runCommand _
  · exact h.regWrite hb _ _
  · exact h.note _
  · exact h.storeInWord _ hv
  · exact h.storeOutWord _ hv
  · exact h.note _
  · exact h.tick.withHostSide _ _ _
  · exact h.note _
  · exact h.applyReset
  · exact h
  · exact h.accept _
  · exact h.tick

end Legal

/-- Settles O45 (10_state.md sections 2, 7 and 8): the invariant, kept by every internal step and every host line. -/
theorem everyStepKeepsTheStateLegal : Obligations.EveryStepKeepsTheStateLegal := by
  intro s t h hstep
  obtain ⟨-, rfl⟩ | ⟨a, rest, -, hline⟩ := step_cases hstep
  · exact h.tick
  · exact (h.withHostSide rest s.noted s.free).hostStep hline

end Sys2Proof.Machine
/-! PROOFS of the lines of the script: which line of the host's script can
change a parameter, `IN` or `ERR`, and that the atomic view never stops. -/

namespace Sys2Proof.Machine

/-! ### What one line changes -/

/-- No line changes a parameter (10_state.md R20), and a line that changes `IN` stores to it (10_state.md R37). -/
theorem hostStep_keeps_cfg_and_inMem {a : HostAction} {u t : State} (h : hostStep a u = .next t) :
    t.cfg = u.cfg ∧ (t.inMem = u.inMem ∨ ∃ i v, a = .storeIn i v) := by
  obtain ⟨_, _, -, -, rfl⟩ | ⟨v, -, -, rfl⟩ | ⟨r, v, -, -, -, rfl⟩ | ⟨_, -, rfl⟩ | ⟨i, v, ha, -, -, rfl⟩ |
    ⟨_, _, -, -, -, rfl⟩ | ⟨_, -, -, rfl⟩ | ⟨-, -, rfl⟩ | ⟨-, -, rfl⟩ | ⟨-, rfl⟩ | ⟨_, -, -, rfl⟩ |
    ⟨_, -, -, rfl⟩ | ⟨-, rfl⟩ := hostStep_cases h
  · exact ⟨rfl, .inl rfl⟩
  · have hrun := sameContext_runCommand (decode v) u
    exact ⟨hrun.cfg, .inl hrun.inMem⟩
  · obtain ⟨hcfg, -, -, -, hin, -⟩ := regWrite_frame u (regOfNumber r) v
    exact ⟨hcfg, .inl hin⟩
  · exact ⟨rfl, .inl rfl⟩
  · exact ⟨rfl, .inr ⟨i, v, ha⟩⟩
  · exact ⟨rfl, .inl rfl⟩
  · exact ⟨rfl, .inl rfl⟩
  · exact ⟨(sameContext_tick u).cfg, .inl (sameContext_tick u).inMem⟩
  · exact ⟨rfl, .inl rfl⟩
  · exact ⟨rfl, .inl rfl⟩
  · exact ⟨rfl, .inl rfl⟩
  · exact ⟨rfl, .inl rfl⟩
  · exact ⟨(sameContext_tick u).cfg, .inl (sameContext_tick u).inMem⟩

/-- Settles O46 (10_state.md R20): neither an internal step nor a line of the script changes one. -/
theorem parametersNeverChange : Obligations.ParametersNeverChange := by
  intro s t h
  obtain ⟨-, rfl⟩ | ⟨a, rest, -, hline⟩ := step_cases h
  · exact (sameContext_tick s).cfg
  · exact (hostStep_keeps_cfg_and_inMem hline).1

/-- Settles O47 (10_state.md R36, R37): an internal step changes no word of `IN`, and a line that does is a store. -/
theorem onlyTheHostWritesIN : Obligations.OnlyTheHostWritesIN := by
  intro s t h hno
  obtain ⟨-, rfl⟩ | ⟨a, rest, hs, hline⟩ := step_cases h
  · exact (sameContext_tick s).inMem
  · refine (hostStep_keeps_cfg_and_inMem hline).2.resolve_right fun ⟨i, v, ha⟩ => hno i v rest ?_
    rw [hs, ha]

/-- An internal step that changes `ERR` completes the command in progress. -/
theorem tick_keeps_err_or_completes (s : State) :
    (tick s).err = s.err ∨ (s.activity ≠ .idle ∧ (tick s).busy = false) := by
  obtain ⟨hact, hidle⟩ | ⟨-, hstatus⟩ := tick_completes_or_keeps_registers s
  · exact .inr ⟨hact, hidle.1⟩
  · exact .inl (err_of_status hstatus)

/-- A line that changes `ERR` is the reset, a write to `CMD` that runs its command, or lets the block complete one
(10_state.md R23, 60_exceptions.md R199). -/
theorem hostStep_keeps_err_or_completes {a : HostAction} {u t : State} (h : hostStep a u = .next t) :
    t.err = u.err ∨ a = .reset ∨ (∃ v, a = .write 0 v ∧ u.busy = false ∧ t.busy = false)
      ∨ (u.activity ≠ .idle ∧ t.busy = false) := by
  obtain ⟨_, _, -, -, rfl⟩ | ⟨v, ha, hb, rfl⟩ | ⟨r, v, -, -, -, rfl⟩ | ⟨_, -, rfl⟩ | ⟨_, _, -, -, -, rfl⟩ |
    ⟨_, _, -, -, -, rfl⟩ | ⟨_, -, -, rfl⟩ | ⟨-, -, rfl⟩ | ⟨-, -, rfl⟩ | ⟨ha, rfl⟩ | ⟨_, -, -, rfl⟩ |
    ⟨v, -, -, rfl⟩ | ⟨-, rfl⟩ := hostStep_cases h
  · exact .inl rfl
  · exact .inr (.inr (.inl ⟨v, ha, hb, (isIdle_runCommand (decode v) u).1⟩))
  · obtain ⟨-, hstatus, -⟩ := regWrite_frame u (regOfNumber r) v
    exact .inl (err_of_status hstatus)
  · exact .inl rfl
  · exact .inl rfl
  · exact .inl rfl
  · exact .inl rfl
  · exact (tick_keeps_err_or_completes u).imp_right fun hdone => .inr (.inr hdone)
  · exact .inl rfl
  · exact .inr (.inl ha)
  · exact .inl rfl
  · exact .inl (accept_err (decode v) u)
  · exact (tick_keeps_err_or_completes u).imp_right fun hdone => .inr (.inr hdone)

/-- Settles O48 (10_state.md R23, 60_exceptions.md R199): the ways a line changes `ERR`, or an internal step with no line. -/
theorem onlyCompletionsAndResetWriteErr : Obligations.OnlyCompletionsAndResetWriteErr := by
  intro s t h herr
  obtain ⟨-, rfl⟩ | ⟨a, rest, hs, hline⟩ := step_cases h
  · exact .inr (.inr ((tick_keeps_err_or_completes s).resolve_left herr))
  · obtain rfl | ⟨v, rfl, hb, hdone⟩ | hdone := (hostStep_keeps_err_or_completes hline).resolve_left herr
    · exact .inl ⟨rest, hs⟩
    · exact .inr (.inl ⟨v, rest, hs, hb, hdone⟩)
    · exact .inr (.inr hdone)

/-! ### The buffer lines (30_encoding.md R91) -/

theorem withBuffers_of_busy {u : State} (hb : u.busy = true) (act : State → Host.Outcome State Fault Refusal) :
    withBuffers u act = .fault .bufferRace := if_pos hb

theorem withBuffers_of_not_busy {u : State} (hb : u.busy = false) (act : State → Host.Outcome State Fault Refusal) :
    withBuffers u act = act u := if_neg (by simp [hb])

theorem withWord_of_lt {v : Word} {u : State} (hv : v < 2 ^ u.cfg.W) (t : State) : withWord v u t = .next t :=
  if_pos hv

section IdleLines

variable {u : State} (hb : u.busy = false)
include hb

theorem hostStep_storeIn (i : Nat) {v : Word} (hv : v < 2 ^ u.cfg.W) :
    hostStep (.storeIn i v) u = .next (storeInWord u i v) := by
  rw [hostStep, withBuffers_of_not_busy hb, withWord_of_lt hv]

theorem hostStep_storeOut (i : Nat) {v : Word} (hv : v < 2 ^ u.cfg.W) :
    hostStep (.storeOut i v) u = .next (storeOutWord u i v) := by
  rw [hostStep, withBuffers_of_not_busy hb, withWord_of_lt hv]

theorem hostStep_loadOut (i : Nat) : hostStep (.loadOut i) u = .next (note (memRead u .output i) u) := by
  rw [hostStep, withBuffers_of_not_busy hb]

theorem hostStep_wait_of_not_busy : hostStep .wait u = .next (note (regRead u .status) u) := if_neg (by simp [hb])

theorem hostStep_start_of_not_busy (v : Nat) : hostStep (.start v) u = .next (accept (decode v) u) :=
  congrArg Host.Outcome.next (if_neg (by simp [hb]))

end IdleLines

theorem hostStep_of_busy {u : State} (hb : u.busy = true) {a : HostAction} (htouches : a.touchesBuffer = true) :
    hostStep a u = .fault .bufferRace := by
  cases a with
  | storeIn i v | storeOut i v | loadOut i => rw [hostStep, withBuffers_of_busy hb]
  | write r v | read r | wait | reset | start v | tick => exact absurd htouches Bool.false_ne_true

/-- Settles O9 (assumption log 8): the guard that the three buffer lines share. -/
theorem bufferAccessWhileBusyIsARace : Obligations.BufferAccessWhileBusyIsARace := by
  intro s a rest hs hb htouches
  rw [step_of_script_cons hs]
  exact hostStep_of_busy (u := { s with script := rest }) hb htouches

section StoredWord

variable {s t : State} {sp : Space} {i : Nat} {v : Word} (hcfg : t.cfg = s.cfg)
  (hmem : t.mem sp = (s.mem sp).writeWord s.cfg.W i v)
include hcfg hmem

theorem memRead_stored_word (hv : v < 2 ^ s.cfg.W) : memRead t sp i = v := by
  refine Nat.eq_of_testBit_eq fun n => ?_
  rw [testBit_memRead, hcfg, memReadBit, hmem, readBit_writeWord, if_pos rfl]
  by_cases hn : n < s.cfg.W
  · simp [hn]
  · have habove : v.testBit n = false :=
      Nat.testBit_lt_two_pow (hv.trans_le (Nat.pow_le_pow_right (by decide) (Nat.not_lt.mp hn)))
    simp [hn, habove]

theorem memRead_other_word {i' : Nat} (hi : i' ≠ i) : memRead t sp i' = memRead s sp i' := by
  refine (memRead_eq_iff_memReadBit_eq (congrArg Config.W hcfg) i').mpr fun b _ => ?_
  rw [memReadBit, hmem, readBit_writeWord, if_neg hi, memReadBit]

end StoredWord

/-- Settles O17 (30_encoding.md R91): each store line is one `writeWord`, read back at its index and at the others. -/
theorem storedWordsReadBack : Obligations.StoredWordsReadBack := by
  intro s i v rest hb
  refine ⟨fun hs hv => ⟨s.inMem.writeWord s.cfg.W i v, ?_, ?_, fun i' hi => ?_⟩,
    fun hs hv => ⟨s.outMem.writeWord s.cfg.W i v, ?_, ?_, fun i' hi => ?_⟩, fun hs => ?_⟩
  · exact (step_of_script_cons hs).trans (hostStep_storeIn (u := { s with script := rest }) hb i hv)
  · exact memRead_stored_word (s := s) (t := storeInWord { s with script := rest } i v) (sp := .input) rfl rfl hv
  · exact memRead_other_word (s := s) (t := storeInWord { s with script := rest } i v) (sp := .input) rfl rfl hi
  · exact (step_of_script_cons hs).trans (hostStep_storeOut (u := { s with script := rest }) hb i hv)
  · exact memRead_stored_word (s := s) (t := storeOutWord { s with script := rest } i v) (sp := .output) rfl rfl hv
  · exact memRead_other_word (s := s) (t := storeOutWord { s with script := rest } i v) (sp := .output) rfl rfl hi
  · exact (step_of_script_cons hs).trans (hostStep_loadOut (u := { s with script := rest }) hb i)

/-- Settles O16 (20_memory.md R59): the bit at the address written and the bit at any other; `MemWriteBit` updates `OUT` alone. -/
theorem writingOneBitChangesOneBit : Obligations.WritingOneBitChangesOneBit := by
  intro s i n v _ _
  refine ⟨?_, fun i' n' hne => ?_, rfl, ⟨rfl, rfl, rfl, rfl, rfl, rfl⟩, rfl, rfl, rfl⟩
  · rw [memReadBit_memWriteBit, if_pos ⟨rfl, rfl⟩]
  · rw [memReadBit_memWriteBit, if_neg fun ⟨hi, hn⟩ => hne (Prod.ext hi hn)]

/-! ### The atomic view (00_scope.md section 5) -/

theorem tick_of_idle {s : State} (h : s.activity = .idle) : tick s = s := by simp [tick, h]

/-- On an idle block each line of the atomic view is answered, and no command is then half done. -/
theorem hostStep_of_idle {a : HostAction} {u : State} (hidle : u.isIdle) (hatomic : a.atomic = true)
    (hwf : a.wellFormed u.cfg = true) : ∃ t, hostStep a u = .next t ∧ t.isIdle ∧ t.script = u.script := by
  obtain ⟨hb, hact⟩ := hidle
  cases a with
  | write r v =>
    by_cases hr : r = 0
    · subst hr
      exact ⟨_, (hostWrite_cmd_of_idle hb v).trans (exec_eq_runCommand _ u), isIdle_runCommand _ u,
        (sameContext_runCommand _ u).hostSide.1⟩
    · obtain ⟨-, hstatus, -, -, -, -, hact', hscript, -⟩ := regWrite_frame u (regOfNumber r) v
      exact ⟨_, hostWrite_of_idle hb hr v, ⟨(busy_of_status hstatus).trans hb, hact'.trans hact⟩, hscript⟩
  | read r => exact ⟨_, rfl, ⟨hb, hact⟩, rfl⟩
  | storeIn i v => exact ⟨_, hostStep_storeIn hb i (of_decide_eq_true hwf), ⟨hb, hact⟩, rfl⟩
  | storeOut i v => exact ⟨_, hostStep_storeOut hb i (of_decide_eq_true hwf), ⟨hb, hact⟩, rfl⟩
  | loadOut i => exact ⟨_, hostStep_loadOut hb i, ⟨hb, hact⟩, rfl⟩
  | wait => exact ⟨_, hostStep_wait_of_not_busy hb, ⟨hb, hact⟩, rfl⟩
  | reset => exact ⟨_, rfl, isIdle_applyReset u, rfl⟩
  | start v => exact absurd hatomic Bool.false_ne_true
  | tick => exact ⟨_, congrArg Host.Outcome.next (tick_of_idle hact), ⟨hb, hact⟩, rfl⟩

/-- Settles O49 (00_scope.md section 5): the step of a script's next line, on the state with the line taken off. -/
theorem atomicLinesNeverStop : Obligations.AtomicLinesNeverStop := by
  intro s a rest hidle hs hatomic hwf
  rw [step_of_script_cons hs]
  exact hostStep_of_idle (u := { s with script := rest }) hidle hatomic hwf

end Sys2Proof.Machine
/-! PROOFS of the step-by-step view (30_encoding.md R84, R92; 70_reset_and_hazards.md R230, R234): what an internal step
shows the host, that a command run step by step ends as the atomic one, and that `WAIT` ends. -/

namespace Sys2Proof.Machine

/-! ### One internal step -/

/-- A `DECODE` whose check has passed has its positions below `CAP`. -/
theorem decodeBits_le_wb2f {s : State} (h : decodeError s = none) {w : Nat} (hw : s.cap ≤ w) (n : Nat) :
    decodeBits s ≤ wb2f s.cfg.W w n :=
  (decodeBits_le_need s).trans (mul_le_wb2f (((decodeError_none_iff s).mp h).2.trans hw) n)

/-- An `ENCODE` whose check has passed has its positions below `CAP`. -/
theorem lineBits_le_wb2f {s : State} (h : encodeError s = none) {w : Nat} (hw : s.cap ≤ w) (n : Nat) :
    2 * inputBits s ≤ wb2f s.cfg.W w n :=
  (Nat.mul_assoc 2 s.len s.cfg.W).symm.trans_le (mul_le_wb2f (((encodeError_none_iff s).mp h).trans hw) n)

theorem tick_keeps_above_cap {s : State} (h : Legal s) {w : Nat} (hw : s.cap ≤ w) (n : Nat) :
    memReadBit (tick s) .output w n = memReadBit s .output w n := by
  obtain ⟨-, ht⟩ | ⟨e, -, ht⟩ | ⟨-, -, ht⟩ | ⟨-, -, ht⟩ | ⟨i, -, -, ht⟩ | ⟨hact, hj, ht⟩ | ⟨hact, hj, ht⟩ :=
    tick_cases s <;> rw [ht]
  · exact memReadBit_output_congr (finish_outMem e s) w n
  · exact memReadBit_output_congr (decodeStart_outMem s) w n
  · exact memReadBit_output_congr (encodeStart_outMem s) w n
  · exact runCommand_keeps_above_cap i hw n
  · have hpast := decodeBits_le_wb2f (h.decoding hact).1 hw n
    exact (decodeLoop_bit 1 s w n).trans (if_neg (by omega))
  · have hpast := lineBits_le_wb2f (h.encoding hact).1 hw n
    exact (encodeLoop_bit 1 s w n).trans (if_neg (by omega))

/-- Settles O51 (70_reset_and_hazards.md R229, R230): the context, `OUT` above `CAP`, and the step that completes or
keeps the registers. -/
theorem internalStepsShowTheHostNothing : Obligations.InternalStepsShowTheHostNothing := by
  intro s h hb
  have hcontext := sameContext_tick s
  refine ⟨hcontext.cfg, hcontext.len, hcontext.cap, hcontext.inMem, hcontext.hostSide,
    fun w n hw => tick_keeps_above_cap h hw n, ?_⟩
  obtain ⟨-, hidle⟩ | ⟨hregs, hstatus⟩ := tick_completes_or_keeps_registers s
  · exact ⟨fun hbusy => absurd (hidle.1.symm.trans hbusy) Bool.false_ne_true, fun _ => hidle.2⟩
  · exact ⟨fun _ => ⟨hregs, hstatus⟩,
      fun hdone => absurd (hdone.symm.trans ((busy_of_status hstatus).trans hb)) Bool.false_ne_true⟩

/-! ### A command does not look at `STATUS` or at how far it has come -/

/-- The state with another `STATUS` and another progress of the command. -/
def withProgress (st : BitVec 3) (act : Activity) (s : State) : State := { s with status := st, activity := act }

theorem finish_withProgress (e : ErrCode) (st : BitVec 3) (act : Activity) (s : State) :
    finish e (withProgress st act s) = finish e s := rfl

theorem accept_eq_withProgress (i : Instr) (s : State) :
    accept i s = withProgress (statusWord true s.err) (.accepted i) s := rfl

theorem decodeLoop_withProgress (n : Nat) (st : BitVec 3) (act : Activity) (s : State) :
    decodePosition^[n] (withProgress st act s) = withProgress st act (decodePosition^[n] s) := by
  have hcomm : Function.Commute decodePosition (withProgress st act) := fun _ => rfl
  exact hcomm.iterate_left n s

theorem encodeLoop_withProgress (n : Nat) (st : BitVec 3) (act : Activity) (s : State) :
    encodePosition^[n] (withProgress st act s) = withProgress st act (encodePosition^[n] s) := by
  have hcomm : Function.Commute encodePosition (withProgress st act) := fun _ => rfl
  exact hcomm.iterate_left n s

theorem commandError_withProgress (i : Instr) (st : BitVec 3) (act : Activity) (s : State) :
    commandError i (withProgress st act s) = commandError i s := by
  cases i <;> rfl

theorem commandBody_withProgress (i : Instr) (st : BitVec 3) (act : Activity) (s : State) :
    commandBody i (withProgress st act s) = withProgress st act (commandBody i s) := by
  cases i with
  | decode => exact decodeLoop_withProgress _ st act (decodeStart s)
  | encode => exact encodeLoop_withProgress _ st act (encodeStart s)
  | f2wb | wb2f => rfl

theorem runCommand_withProgress (i : Instr) (st : BitVec 3) (act : Activity) (s : State) :
    runCommand i (withProgress st act s) = runCommand i s := by
  have hcheck := commandError_withProgress i st act s
  obtain ⟨e, he, hrun⟩ | ⟨hnone, hrun⟩ := runCommand_cases i s
  · rw [hrun, runCommand_of_error (hcheck.trans he), finish_withProgress]
  · rw [hrun, runCommand_of_none (hcheck.trans hnone), commandBody_withProgress, finish_withProgress]

/-! ### Where the command in progress will end -/

/-- The state in which the command in progress completes: the loop run to its end, then the completion. -/
def completion (s : State) : State :=
  match s.activity with
  | .idle => s
  | .accepted i => runCommand i s
  | .decoding => finish .ok (decodePosition^[decodeBits s - s.j] s)
  | .encoding => finish .ok (encodePosition^[inputBits s - s.j] s)

theorem completion_of_idle {s : State} (h : s.activity = .idle) : completion s = s := by
  simp [completion, h]

theorem completion_of_accepted {s : State} {i : Instr} (h : s.activity = .accepted i) :
    completion s = runCommand i s := by
  simp [completion, h]

theorem completion_of_decoding {s : State} (h : s.activity = .decoding) :
    completion s = finish .ok (decodePosition^[decodeBits s - s.j] s) := by
  simp [completion, h]

theorem completion_of_encoding {s : State} (h : s.activity = .encoding) :
    completion s = finish .ok (encodePosition^[inputBits s - s.j] s) := by
  simp [completion, h]

theorem completion_accept (i : Instr) (s : State) : completion (accept i s) = runCommand i s := by
  rw [completion_of_accepted (accept_activity i s), accept_eq_withProgress, runCommand_withProgress]

/-! What an internal step does, by the progress of the command. -/

theorem tick_of_failed_check {s : State} {i : Instr} {e : ErrCode} (hact : s.activity = .accepted i)
    (h : commandError i s = some e) : tick s = finish e s := by
  cases i with
  | decode => simp [tick, hact, show decodeError s = some e from h]
  | encode => simp [tick, hact, show encodeError s = some e from h]
  | f2wb => exact absurd h (Option.some_ne_none e).symm
  | wb2f => simp [tick, hact, runWb2f_of_error h]

theorem tick_of_decode_accepted {s : State} (hact : s.activity = .accepted .decode) (h : decodeError s = none) :
    tick s = withProgress s.status .decoding (decodeStart s) := by
  simp only [tick, hact, h]
  rfl

theorem tick_of_encode_accepted {s : State} (hact : s.activity = .accepted .encode) (h : encodeError s = none) :
    tick s = withProgress s.status .encoding (encodeStart s) := by
  simp only [tick, hact, h]
  rfl

/-- The bit-index commands have no loop: their first internal step is their last. -/
theorem tick_of_unit_accepted {s : State} {i : Instr} (hact : s.activity = .accepted i)
    (hi : i = .f2wb ∨ i = .wb2f) : tick s = runCommand i s := by
  obtain rfl | rfl := hi <;> simp [tick, hact, runCommand]

theorem tick_of_decoding {s : State} (hact : s.activity = .decoding) :
    tick s = if s.j < decodeBits s then decodePosition s else finish .ok s := by
  simp [tick, hact]

theorem tick_of_encoding {s : State} (hact : s.activity = .encoding) :
    tick s = if s.j < inputBits s then encodePosition s else finish .ok s := by
  simp [tick, hact]

/-- Taking one position now or in the loop that is left is the same. -/
theorem iterate_sub_of_lt {f : State → State} {n j : Nat} (hj : j < n) (s : State) :
    f^[n - (j + 1)] (f s) = f^[n - j] s := by
  rw [← Function.iterate_succ_apply, show (n - (j + 1)).succ = n - j by omega]

theorem completion_tick_of_accepted {s : State} {i : Instr} (hact : s.activity = .accepted i) :
    completion (tick s) = runCommand i s := by
  obtain ⟨e, he, hrun⟩ | ⟨hnone, hrun⟩ := runCommand_cases i s
  · rw [tick_of_failed_check hact he, completion_of_idle (finish_activity e s), hrun]
  · cases i with
    | decode =>
      rw [tick_of_decode_accepted hact hnone, completion_of_decoding rfl, decodeLoop_withProgress,
        finish_withProgress, hrun]
      rfl
    | encode =>
      rw [tick_of_encode_accepted hact hnone, completion_of_encoding rfl, encodeLoop_withProgress,
        finish_withProgress, hrun]
      rfl
    | f2wb =>
      rw [tick_of_unit_accepted hact (.inl rfl)]
      exact completion_of_idle (isIdle_runCommand .f2wb s).2
    | wb2f =>
      rw [tick_of_unit_accepted hact (.inr rfl)]
      exact completion_of_idle (isIdle_runCommand .wb2f s).2

/-- An internal step changes nothing of where the command will end. -/
theorem completion_tick (s : State) : completion (tick s) = completion s := by
  cases hact : s.activity with
  | idle => rw [tick_of_idle hact]
  | accepted i => rw [completion_tick_of_accepted hact, completion_of_accepted hact]
  | decoding =>
    rw [tick_of_decoding hact, completion_of_decoding hact]
    split
    case isTrue hj =>
      rw [completion_of_decoding (s := decodePosition s) hact]
      exact congrArg (finish .ok) (iterate_sub_of_lt hj s)
    case isFalse hj =>
      rw [completion_of_idle (finish_activity .ok s), Nat.sub_eq_zero_of_le (Nat.not_lt.mp hj)]
      rfl
  | encoding =>
    rw [tick_of_encoding hact, completion_of_encoding hact]
    split
    case isTrue hj =>
      rw [completion_of_encoding (s := encodePosition s) hact]
      exact congrArg (finish .ok) (iterate_sub_of_lt hj s)
    case isFalse hj =>
      rw [completion_of_idle (finish_activity .ok s), Nat.sub_eq_zero_of_le (Nat.not_lt.mp hj)]
      rfl

/-! ### How many internal steps are left -/

/-- A bound on the internal steps before the command in progress completes. -/
def ticksLeft (s : State) : Nat :=
  match s.activity with
  | .idle => 0
  | .accepted _ => inputBits s + 2
  | .decoding => inputBits s - s.j + 1
  | .encoding => inputBits s - s.j + 1

theorem ticksLeft_of_idle {s : State} (h : s.activity = .idle) : ticksLeft s = 0 := by simp [ticksLeft, h]

theorem ticksLeft_le (s : State) : ticksLeft s ≤ s.len * s.cfg.W + 2 := by
  change _ ≤ inputBits s + 2
  unfold ticksLeft
  split <;> omega

theorem ticksLeft_pos {s : State} (h : s.activity ≠ .idle) : 0 < ticksLeft s := by
  unfold ticksLeft
  split
  · exact absurd ‹_› h
  all_goals omega

theorem ticksLeft_tick_lt {s : State} (hact : s.activity ≠ .idle) : ticksLeft (tick s) < ticksLeft s := by
  obtain ⟨hidle, -⟩ | ⟨e, -, ht⟩ | ⟨ha, -, ht⟩ | ⟨ha, -, ht⟩ | ⟨i, -, -, ht⟩ | ⟨ha, hj, ht⟩ | ⟨ha, hj, ht⟩ :=
    tick_cases s
  · exact absurd hidle hact
  · rw [ht, ticksLeft_of_idle (finish_activity e s)]
    exact ticksLeft_pos hact
  · rw [ht]
    simp [ticksLeft, ha, inputBits]
  · rw [ht]
    simp [ticksLeft, ha, inputBits]
  · rw [ht, ticksLeft_of_idle (isIdle_runCommand i s).2]
    exact ticksLeft_pos hact
  · have hlt : s.j < inputBits s := hj.trans_le (Nat.div_le_self _ 2)
    rw [ht]
    simp only [ticksLeft, decodePosition_activity, ha]
    change inputBits s - (s.j + 1) + 1 < _
    omega
  · rw [ht]
    simp only [ticksLeft, encodePosition_activity, ha]
    change inputBits s - (s.j + 1) + 1 < _
    omega

/-! ### The atomic view is sound (70_reset_and_hazards.md R234) -/

/-- The host sees the same registers, `STATUS` and `IN` in both states. -/
def ShowsTheSame (s u : State) : Prop := SameRegs s u ∧ u.status = s.status ∧ u.inMem = s.inMem

theorem ShowsTheSame.refl (s : State) : ShowsTheSame s s := ⟨⟨rfl, rfl, rfl, rfl, rfl, rfl⟩, rfl, rfl⟩

theorem ShowsTheSame.trans {s t u : State} (h : ShowsTheSame s t) (h' : ShowsTheSame t u) : ShowsTheSame s u := by
  obtain ⟨hregs, hstatus, hin⟩ := h
  obtain ⟨hregs', hstatus', hin'⟩ := h'
  exact ⟨hregs.trans hregs', hstatus'.trans hstatus, hin'.trans hin⟩

/-- Run step by step, the command in progress reaches its completion, and shows the host nothing before. -/
theorem exists_ticks_to_completion (bound : Nat) (s : State) (hbound : ticksLeft s ≤ bound) :
    ∃ n, n ≤ bound ∧ tick^[n] s = completion s ∧ ∀ m, m < n → ShowsTheSame s (tick^[m] s) := by
  induction bound generalizing s with
  | zero =>
    have hidle : s.activity = .idle := by_contra fun hact => (ticksLeft_pos hact).ne' (Nat.le_zero.mp hbound)
    exact ⟨0, le_rfl, (completion_of_idle hidle).symm, fun m hm => absurd hm m.not_lt_zero⟩
  | succ bound ih =>
    obtain ⟨-, hidle⟩ | ⟨hregs, hstatus⟩ := tick_completes_or_keeps_registers s
    · refine ⟨1, by omega, ?_, fun m hm => ?_⟩
      · rw [← completion_tick, completion_of_idle hidle.2]
        rfl
      · obtain rfl := Nat.lt_one_iff.mp hm
        exact .refl s
    · have hleft : ticksLeft (tick s) ≤ bound := by
        by_cases hact : s.activity = .idle
        · rw [tick_of_idle hact, ticksLeft_of_idle hact]
          exact Nat.zero_le _
        · have := ticksLeft_tick_lt hact
          omega
      obtain ⟨n, hn, hend, hshow⟩ := ih (tick s) hleft
      have hfirst : ShowsTheSame s (tick s) := ⟨hregs, hstatus, (sameContext_tick s).inMem⟩
      refine ⟨n + 1, by omega, by rw [Function.iterate_succ_apply, hend, completion_tick], fun m hm => ?_⟩
      cases m with
      | zero => exact .refl s
      | succ m => exact hfirst.trans (hshow m (by omega))

/-- Settles O50 (70_reset_and_hazards.md R234): the completion of an accepted command is the command's meaning. -/
theorem stepwiseRunEqualsTheAtomicCommand : Obligations.StepwiseRunEqualsTheAtomicCommand := by
  intro i s
  obtain ⟨n, hn, hend, hshow⟩ :=
    exists_ticks_to_completion (s.len * s.cfg.W + 2) (accept i s) (ticksLeft_le (accept i s))
  refine ⟨n, runCommand i s, hn, exec_eq_runCommand i s, hend.trans (completion_accept i s), fun m hm => ?_⟩
  obtain ⟨hregs, hstatus, hin⟩ := hshow m hm
  exact ⟨(busy_of_status hstatus).trans (accept_busy i s), (err_of_status hstatus).trans (accept_err i s), hregs, hin⟩

/-! ### `WAIT` (30_encoding.md R92) -/

theorem run_succ_of_step (M : Host.Core) {s s' : M.State} (h : M.step s = .next s') (n : Nat) :
    M.run (n + 1) s = M.run n s' := by
  simp only [Host.Core.run, h]

section Wait

variable {s : State} {rest : List HostAction} (hs : s.script = .wait :: rest)
include hs

theorem step_wait_of_not_busy (hb : s.busy = false) :
    step s = .next (note s.status.toNat { s with script := rest }) :=
  (step_of_script_cons hs).trans (hostStep_wait_of_not_busy (u := { s with script := rest }) hb)

/-- One poll and one internal step; `WAIT` stays in front. -/
theorem step_wait_of_busy (hb : s.busy = true) :
    step s = .next { tick { s with script := rest } with script := .wait :: rest } := by
  rw [step_of_script_cons hs, hostStep, if_pos (show State.busy { s with script := rest } = true from hb)]

end Wait

/-- The state at which `WAIT` has ended. -/
def WaitEnded (s t : State) (rest : List HostAction) : Prop :=
  t.script = rest ∧ t.busy = false ∧ t.noted = s.noted ++ [t.status.toNat]

theorem exists_steps_to_waitEnded_of_not_busy {s : State} {rest : List HostAction} (hs : s.script = .wait :: rest)
    (hb : s.busy = false) : ∃ t, Host.Core.run core 1 s = .next t ∧ WaitEnded s t rest :=
  ⟨_, run_succ_of_step core (step_wait_of_not_busy hs hb) 0, rfl, hb, rfl⟩

/-- Each poll on a busy block leaves one internal step less. -/
theorem exists_steps_to_waitEnded (bound : Nat) {s : State} {rest : List HostAction} (h : Legal s)
    (hs : s.script = .wait :: rest) (hbound : ticksLeft s ≤ bound) :
    ∃ n t, n ≤ bound + 1 ∧ Host.Core.run core n s = .next t ∧ WaitEnded s t rest := by
  induction bound generalizing s with
  | zero =>
    have hb : s.busy = false := by
      by_contra hbusy
      exact (ticksLeft_pos (h.busy_active.mp (Bool.eq_true_of_not_eq_false hbusy))).ne' (Nat.le_zero.mp hbound)
    obtain ⟨t, hrun, hended⟩ := exists_steps_to_waitEnded_of_not_busy hs hb
    exact ⟨1, t, le_rfl, hrun, hended⟩
  | succ bound ih =>
    cases hb : s.busy with
    | false =>
      obtain ⟨t, hrun, hended⟩ := exists_steps_to_waitEnded_of_not_busy hs hb
      exact ⟨1, t, by omega, hrun, hended⟩
    | true =>
      have hstep := step_wait_of_busy hs hb
      have hless : ticksLeft (tick { s with script := rest }) < ticksLeft s :=
        ticksLeft_tick_lt (s := { s with script := rest }) (h.busy_active.mp hb)
      obtain ⟨n, t, hn, hrun, hscript, hidle, hnoted⟩ :=
        ih (everyStepKeepsTheStateLegal _ _ h hstep) rfl (Nat.le_of_lt_succ (hless.trans_le hbound))
      refine ⟨n + 1, t, by omega, (run_succ_of_step core hstep n).trans hrun, hscript, hidle, ?_⟩
      rw [hnoted]
      exact congrArg (· ++ [t.status.toNat]) (sameContext_tick { s with script := rest }).hostSide.2.1

/-- Settles O52 (30_encoding.md R92, 70_reset_and_hazards.md R232): the internal steps left and the last poll. -/
theorem waitAlwaysEnds : Obligations.WaitAlwaysEnds := fun s _ h hs =>
  exists_steps_to_waitEnded (s.len * s.cfg.W + 2) h hs (ticksLeft_le s)

end Sys2Proof.Machine
/-! PROOFS of single statements: the command codes (30_encoding.md R80, R83), the parameters (60_exceptions.md R194),
pairs that straddle two words (43_bit_index_unit.md section 3), `STATUS`, the step and the reset input. -/

namespace Sys2Proof.Machine

/-! ### Codes and parameters -/

/-- Settles O1 (30_encoding.md R80, R83): rows of the table, by evaluation. -/
theorem commandCodesSelectTheirOperations : Obligations.CommandCodesSelectTheirOperations :=
  ⟨rfl, rfl, rfl, rfl, rfl, rfl, rfl⟩

theorem encode_decodeOp : ∀ op : BitVec 2, encode (decodeOp op) = op := by decide

/-- Settles O2 (30_encoding.md R80, R83): the table is a bijection on the two bits that `decode` cuts out. -/
theorem decodeAndEncodeAgree : Obligations.DecodeAndEncodeAgree := by
  constructor
  · intro i
    cases i <;> rfl
  · intro v
    rw [decode, encode_decodeOp, BitVec.toNat_ofNat]

/-- Settles O10 (60_exceptions.md R194): the checks of an elaboration are the bounds a configuration carries. -/
theorem elaborationAcceptsExactlyLegalParameters : Obligations.ElaborationAcceptsExactlyLegalParameters := by
  intro W IW P0
  constructor
  · rintro ⟨c, -, rfl, rfl, -⟩
    exact ⟨c.one_le_W, c.W_le_max, c.one_le_IW⟩
  · rintro ⟨h0, h1, h2⟩
    refine ⟨⟨W, IW, P0, h0, h1, h2⟩, ?_, rfl, rfl, rfl⟩
    rw [Config.elaborate, dif_pos h0, dif_pos h1, dif_pos h2]

/-! ### Pairs that straddle two words (43_bit_index_unit.md R157) -/

theorem f2wb_succ_of_last {W k : Nat} (hW : 1 ≤ W) (hlast : k % W = W - 1) :
    f2wb W (k + 1) = ((f2wb W k).1 + 1, W - 1) := by
  rw [f2wb_eq_iff (by omega)]
  simp only [wb2f, f2wb, Nat.succ_mul]
  have hk := Nat.div_add_mod' k W
  omega

theorem f2wb_succ_word_of_not_last {W k : Nat} (hW : 1 ≤ W) (hlast : k % W ≠ W - 1) :
    (f2wb W (k + 1)).1 = (f2wb W k).1 := by
  have hmod := Nat.mod_lt k hW
  have hk := Nat.div_add_mod' k W
  have hnext : f2wb W (k + 1) = ((f2wb W k).1, W - 1 - (k % W + 1)) := by
    rw [f2wb_eq_iff (by omega)]
    simp only [wb2f, f2wb]
    omega
  rw [hnext]

theorem f2wb_word_ne_succ_iff {W : Nat} (hW : 1 ≤ W) (k : Nat) :
    (f2wb W k).1 ≠ (f2wb W (k + 1)).1 ↔ k % W = W - 1 := by
  constructor
  · exact fun hne => by_contra fun hlast => hne (f2wb_succ_word_of_not_last hW hlast).symm
  · intro hlast
    rw [f2wb_succ_of_last hW hlast]
    exact (Nat.succ_ne_self _).symm

/-- A pair starts at an even position, and in words of even width the last position is odd. -/
theorem width_odd_of_pair_at_last {W j : Nat} (hW : 1 ≤ W) (hlast : 2 * j % W = W - 1) : W % 2 = 1 := by
  by_contra heven
  have hparity : 2 * j % W % 2 = 2 * j % 2 := Nat.mod_mod_of_dvd _ (Nat.dvd_of_mod_eq_zero (by omega))
  omega

/-- Settles O19 (20_memory.md R57, 43_bit_index_unit.md R157): straddling is being at the last position of a word, whose
bit index is 0. -/
theorem pairStraddlesOnlyForOddWidth : Obligations.PairStraddlesOnlyForOddWidth := by
  intro W j hW
  rw [f2wb_word_ne_succ_iff hW]
  refine ⟨⟨fun hlast => ⟨width_odd_of_pair_at_last hW hlast, hlast⟩, And.right⟩,
    fun hlast => ⟨?_, f2wb_succ_of_last hW hlast⟩⟩
  rw [f2wb, hlast, Nat.sub_self]

/-! ### `STATUS` (10_state.md R23) -/

theorem status_toNat_of_fields : ∀ st : BitVec 3,
    st.toNat = 2 * (ErrCode.ofCode (st.extractLsb' 1 2)).code.toNat + (if st.getLsbD 0 then 1 else 0) := by decide

theorem status_toNat (s : State) : s.status.toNat = 2 * s.err.code.toNat + (if s.busy then 1 else 0) :=
  status_toNat_of_fields s.status

/-- Settles O5 (10_state.md R23): register 1 stores nothing, and its three bits are `ERR` above `BUSY`. -/
theorem statusRegisterIsReadOnly : Obligations.StatusRegisterIsReadOnly := by
  intro s v rest
  refine ⟨fun hs => step_write_of_not_stored hs (.inl rfl), fun hs => ?_⟩
  rw [step_read hs, regOfNumber_status, regRead_status, status_toNat]

/-! ### The step -/

theorem step_of_script_nil {s : State} (hs : s.script = []) : step s = .next (tick s) := by simp [step, hs]

theorem step_withFetchWord (s : State) {nbits w : Nat} (hw : w < 2 ^ nbits) :
    step (s.withFetchWord nbits w) = exec (decode w) { s with status := statusWord false s.err, activity := .idle } := by
  have hidle : (s.withFetchWord nbits w).busy = false := statusWord_busy false s.err
  rw [step_write_cmd_of_idle rfl hidle, Nat.mod_eq_of_lt hw]
  rfl

/-- Settles O3 (10_state.md R22, assumption logs 2 and 7): one equation per kind of line, and one for no line. -/
theorem stepRunsTheSelectedCommand : Obligations.StepRunsTheSelectedCommand := by
  refine ⟨fun s v rest hs hb => step_write_cmd_of_idle hs hb, fun s hs => step_of_script_nil hs,
    fun s v rest hs hb => ?_, fun s rest hs => step_of_script_cons hs, fun s nbits w hw => step_withFetchWord s hw⟩
  exact (step_of_script_cons hs).trans (hostStep_start_of_not_busy (u := { s with script := rest }) hb v)

/-! ### Reset (10_state.md R39, 70_reset_and_hazards.md R220, R221) -/

/-- Settles O11 (10_state.md R39): the zeros of the table, and `STATUS` read by field. -/
theorem resetStateHasTheTablesValues : Obligations.ResetStateHasTheTablesValues :=
  ⟨⟨rfl, rfl, rfl, rfl, rfl, rfl⟩,
    fun _ _ _ _ _ => ⟨busy_of_status_zero rfl, err_of_status_zero rfl, rfl, rfl, rfl, rfl, rfl⟩⟩

@[simp] theorem applyReset_cap (s : State) : (applyReset s).cap = 0 := rfl

theorem applyReset_outMem_of_not_busy {s : State} (hb : s.busy = false) : (applyReset s).outMem = s.outMem :=
  if_neg (by simp [hb])

theorem applyReset_outMem_of_busy {s : State} (hb : s.busy = true) :
    (applyReset s).outMem =
      Memory.fill s.cfg.W (fun i => trunc s.cfg.W (Config.abandonedOut s.free i)) s.cap s.outMem :=
  if_pos hb

/-- An abandoned command leaves the words at or above `CAP` alone (70_reset_and_hazards.md R221). -/
theorem applyReset_keeps_above_cap {s : State} (hb : s.busy = true) {i : Nat} (hi : s.cap ≤ i) (n : Nat) :
    memReadBit (applyReset s) .output i n = memReadBit s .output i n := by
  have hmem : (applyReset s).mem .output = _ := applyReset_outMem_of_busy hb
  rw [memReadBit, hmem, readBit_fill, if_neg (Nat.not_lt.mpr hi)]
  rfl

/-- Settles O13 (70_reset_and_hazards.md R220): the reset values; on an idle block there is no command to abandon. -/
theorem resetInputClearsTheRegisters : Obligations.ResetInputClearsTheRegisters := by
  intro s rest hs hb
  exact ⟨_, step_reset hs, rfl, rfl, rfl, rfl, rfl, rfl, rfl,
    applyReset_outMem_of_not_busy (s := { s with script := rest }) hb, rfl, isIdle_applyReset _, rfl, rfl⟩

/-- Settles O14 (70_reset_and_hazards.md R221): the reset values, and the words the abandoned command may not write. -/
theorem resetAbandonsARunningCommand : Obligations.ResetAbandonsARunningCommand := by
  intro s rest hs hb
  exact ⟨_, step_reset hs, rfl, rfl, rfl, rfl, rfl, rfl, isIdle_applyReset _, rfl, rfl, rfl, rfl,
    fun i n hi => applyReset_keeps_above_cap (s := { s with script := rest }) hb hi n⟩

end Sys2Proof.Machine
